-- ==== Sys2Proof/Word.lean ====
section
/-! DEFINITION. The widths of the machine (spec/00_scope.md R6, R7): 16-bit words, 8 registers, 32-bit
decoded-instruction words. Nothing here computes. -/

namespace Sys2Proof

/-- `WORD_WIDTH` = 16: registers, `sp`, `pc`, memory cells, addresses and immediates (R6, R14 "Word"). -/
abbrev Word := BitVec 16

/-- One decoded-instruction word, an entry of the program store (R36, R83). -/
abbrev InstrWord := BitVec 32

/-- A register index, 0 to 7: `REG_COUNT` = 8 (R6, R21). An index outside that range cannot be written down,
as R82 and R91 say of the hardware. -/
abbrev Reg := Fin 8

end Sys2Proof
end

