-- ==== Sys2Proof/Config.lean ====
section
/-! DEFINITION. What is fixed for one machine and never changes while it runs (spec/00_scope.md R6): the
construction parameters, the fixed zero-flag policy, and the one parameter the spec leaves open. -/

namespace Sys2Proof

/-- The parameters of one machine and one run (R6). They are no part of the state vector of R20. The Lean State
carries them in one field that no step writes (log 1).
`PROG_LEN` is `prog.length`. Which values are legal is `Config.wf` (WellFormed.lean). -/
structure Config where
  /-- `MEM_CAPACITY`, written `CAP`: how many words data memory has (R33). -/
  memCapacity : Nat
  /-- `PROG`: the program store (R36). -/
  prog : List InstrWord
  deriving DecidableEq, Repr

/-- The parameters of `State.reset`. DESIGN CHOICE (log 2): the spec gives `MEM_CAPACITY` and `PROG` no value.
The capacity is the largest legal one, and the program store is empty. -/
def Config.atReset : Config := { memCapacity := 65535, prog := [] }

/-- The legal values of `ZF_POLICY`: R6 fixes it at `never`, and no other policy is defined (D7, U9). -/
inductive ZfPolicy where
  | never
  deriving DecidableEq, Repr

/-- `ZF_POLICY` (R6, R31). -/
def Config.zfPolicy : ZfPolicy := .never

/-- The two orders in which the bytes of a word can be written out. -/
inductive ByteOrder where
  | littleEndian
  | bigEndian
  deriving DecidableEq, Repr, Inhabited

/-- `SNAPSHOT_BYTE_ORDER`, OPEN in R6 and R46: a constant with no body, so no proof knows which order it is
(log 9). The core itself never observes it (R64). -/
opaque Config.snapshotByteOrder : ByteOrder

end Sys2Proof
end

