-- ==== Sys2Proof/Syntax.lean ====
section
/-! DEFINITION. The abstract instruction of spec/30_encoding.md R81: a closed set of 15 variants, one constructor
for each row of spec/opcode_table.json, in the table's order and with the spec's operand names. -/

namespace Sys2Proof

/-- One instruction (R81). Register operands are indices 0 to 7 and immediates are raw 16-bit words (R82), both by
type. -/
inductive Instr where
  /-- Add(r1, r2), R111. -/
  | add (r1 r2 : Reg)
  /-- Sub(r1, r2), R112. -/
  | sub (r1 r2 : Reg)
  /-- Mul(r1, r2), R113. -/
  | mul (r1 r2 : Reg)
  /-- Div(r1, r2), R114. -/
  | div (r1 r2 : Reg)
  /-- Mov(r1, r2), R130. -/
  | mov (r1 r2 : Reg)
  /-- Store(addr_reg, val_reg), R131. -/
  | store (addrReg valReg : Reg)
  /-- Load(dst_reg, addr_reg), R132. -/
  | load (dstReg addrReg : Reg)
  /-- Push(r), R151. -/
  | push (r : Reg)
  /-- Pop(r), R152. -/
  | pop (r : Reg)
  /-- Jmp(addr), R171. -/
  | jmp (addr : Word)
  /-- JmpZ(addr), R172. -/
  | jmpZ (addr : Word)
  /-- JmpNZ(addr), R173. -/
  | jmpNZ (addr : Word)
  /-- JmpRel(off), R174. -/
  | jmpRel (off : Word)
  /-- JmpZRel(off), R175. -/
  | jmpZRel (off : Word)
  /-- JmpNZRel(off), R176. -/
  | jmpNZRel (off : Word)
  deriving DecidableEq, Repr

end Sys2Proof
end

