-- ==== Sys2Proof/WellFormed.lean ====
section
/-! DEFINITION. What is checked before a machine or an instruction is accepted.

An `Instr` is well formed by its type (spec/30_encoding.md R82, R91: "always valid (0–7) by construction"), so no
check on `Instr` could refuse anything (log 12). What can be ill formed is an instruction presented as NUMBERS (a
variant number of R81 and a list of operand values), and a configuration (R6). -/

namespace Sys2Proof

/-- The legal configurations of R6: `MEM_CAPACITY` in 0..65535 (65536 is refused, D9) and `PROG_LEN` in 0..65536.
The type admits others, and `construct` refuses them (log 14). -/
def Config.wf (c : Config) : Bool :=
  decide (c.memCapacity ≤ 65535) && decide (c.prog.length ≤ 65536)

/-- An instruction as plain numbers: the variant's row number in R81 and its operand values in the source's order. -/
structure RawInstr where
  variant : Nat
  operands : List Nat
  deriving DecidableEq, Repr

/-- The checks of R81 and R82 on an instruction given as numbers: a variant 0 to 14, the number of operands its row
has, every register operand 0 to 7, every immediate below 2^16. -/
def RawInstr.wf (i : RawInstr) : Bool :=
  if i.variant ≤ 6 then i.operands.length == 2 && i.operands.all (· < 8)
  else if i.variant ≤ 8 then i.operands.length == 1 && i.operands.all (· < 8)
  else if i.variant ≤ 14 then i.operands.length == 1 && i.operands.all (· < 65536)
  else false

/-- An `Instr` written as numbers (R81's table, read from left to right). -/
def Instr.toRaw : Instr → RawInstr
  | .add r1 r2 => ⟨0, [r1.val, r2.val]⟩
  | .sub r1 r2 => ⟨1, [r1.val, r2.val]⟩
  | .mul r1 r2 => ⟨2, [r1.val, r2.val]⟩
  | .div r1 r2 => ⟨3, [r1.val, r2.val]⟩
  | .mov r1 r2 => ⟨4, [r1.val, r2.val]⟩
  | .store addrReg valReg => ⟨5, [addrReg.val, valReg.val]⟩
  | .load dstReg addrReg => ⟨6, [dstReg.val, addrReg.val]⟩
  | .push r => ⟨7, [r.val]⟩
  | .pop r => ⟨8, [r.val]⟩
  | .jmp addr => ⟨9, [addr.toNat]⟩
  | .jmpZ addr => ⟨10, [addr.toNat]⟩
  | .jmpNZ addr => ⟨11, [addr.toNat]⟩
  | .jmpRel off => ⟨12, [off.toNat]⟩
  | .jmpZRel off => ⟨13, [off.toNat]⟩
  | .jmpNZRel off => ⟨14, [off.toNat]⟩

/-- Well-formedness of an abstract instruction: that of its numbers. It holds of every `Instr`
(`Sys2Proof.Laws.instr_wf`). -/
def Instr.wf (i : Instr) : Bool := i.toRaw.wf

end Sys2Proof
end

