-- ==== Sys2Proof/Decode.lean ====
section
/-! DEFINITION. The decoded-instruction word: field layout, decoder, encoder and the opcode table's rows
(spec/30_encoding.md R83 to R95). -/

namespace Sys2Proof

/-- Why a word is illegal (R93). The names are the model's; the machine reports `IllegalInstruction` and no more
(R207, log 8). -/
inductive IllegalWord where
  /-- bits 27:22 are not all zero. -/
  | zNotZero
  /-- bits 31:28 are 15, the one opcode R88 leaves unassigned. -/
  | unassignedOpcode
  /-- bits 21:19 are not zero in format I. -/
  | raNotZero
  /-- bits 18:16 are not zero in format R or I. -/
  | rbNotZero
  /-- bits 15:0 are not zero in format RR or R. -/
  | immNotZero
  deriving DecidableEq, Repr

/-! ### Fields (R84) -/

/-- `op`, bits 31:28. -/
def opField (w : InstrWord) : BitVec 4 := w.extractLsb' 28 4

/-- `z`, bits 27:22. -/
def zField (w : InstrWord) : BitVec 6 := w.extractLsb' 22 6

/-- `ra`, bits 21:19. -/
def raField (w : InstrWord) : BitVec 3 := w.extractLsb' 19 3

/-- `rb`, bits 18:16. -/
def rbField (w : InstrWord) : BitVec 3 := w.extractLsb' 16 3

/-- `imm`, bits 15:0, with no extension, scaling or shift (R90). -/
def immField (w : InstrWord) : Word := w.extractLsb' 0 16

/-- A 3-bit field names a register, whatever its value (R91). -/
def regOfField (f : BitVec 3) : Reg := ⟨f.toNat, f.isLt⟩

/-- The 3-bit field that names a register. -/
def fieldOfReg (r : Reg) : BitVec 3 := BitVec.ofNat 3 r.val

/-! ### The decoder (R92) -/

/-- Format RR (R85): `imm` must be zero; `ra` and `rb` are the operands. -/
def decodeRR (variant : Reg → Reg → Instr) (w : InstrWord) : Except IllegalWord Instr :=
  if immField w ≠ 0 then .error .immNotZero
  else .ok (variant (regOfField (raField w)) (regOfField (rbField w)))

/-- Format R (R86): `rb` and `imm` must be zero; `ra` is the operand. -/
def decodeR (variant : Reg → Instr) (w : InstrWord) : Except IllegalWord Instr :=
  if rbField w ≠ 0 then .error .rbNotZero
  else if immField w ≠ 0 then .error .immNotZero
  else .ok (variant (regOfField (raField w)))

/-- Format I (R87): `ra` and `rb` must be zero; `imm` is the operand. -/
def decodeI (variant : Word → Instr) (w : InstrWord) : Except IllegalWord Instr :=
  if raField w ≠ 0 then .error .raNotZero
  else if rbField w ≠ 0 then .error .rbNotZero
  else .ok (variant (immField w))

/-- `decode(w)` of R92: total on all 2^32 words, with the opcode map of R88 and the operand order of R89. -/
def decode (w : InstrWord) : Except IllegalWord Instr :=
  if zField w ≠ 0 then .error .zNotZero
  else match (opField w).toNat with
    | 0 => decodeRR .add w
    | 1 => decodeRR .sub w
    | 2 => decodeRR .mul w
    | 3 => decodeRR .div w
    | 4 => decodeRR .mov w
    | 5 => decodeRR .store w
    | 6 => decodeRR .load w
    | 7 => decodeR .push w
    | 8 => decodeR .pop w
    | 9 => decodeI .jmp w
    | 10 => decodeI .jmpZ w
    | 11 => decodeI .jmpNZ w
    | 12 => decodeI .jmpRel w
    | 13 => decodeI .jmpZRel w
    | 14 => decodeI .jmpNZRel w
    | _ => .error .unassignedOpcode

/-! ### The encoder (R95) -/

/-- The word of R84 with `z = 0`. -/
def pack (op : BitVec 4) (ra rb : BitVec 3) (imm : Word) : InstrWord :=
  op ++ 0#6 ++ ra ++ rb ++ imm

/-- Format RR (R85): two registers, `imm` zero. -/
def encodeRR (op : BitVec 4) (ra rb : Reg) : InstrWord := pack op (fieldOfReg ra) (fieldOfReg rb) 0

/-- Format R (R86): one register, `rb` and `imm` zero. -/
def encodeR (op : BitVec 4) (ra : Reg) : InstrWord := pack op (fieldOfReg ra) 0 0

/-- Format I (R87): one immediate, `ra` and `rb` zero. -/
def encodeI (op : BitVec 4) (imm : Word) : InstrWord := pack op 0 0 imm

/-- `encode(I)` of R95: each operand in its field by R89, every unused field zero. -/
def encode : Instr → InstrWord
  | .add r1 r2 => encodeRR 0 r1 r2
  | .sub r1 r2 => encodeRR 1 r1 r2
  | .mul r1 r2 => encodeRR 2 r1 r2
  | .div r1 r2 => encodeRR 3 r1 r2
  | .mov r1 r2 => encodeRR 4 r1 r2
  | .store addrReg valReg => encodeRR 5 addrReg valReg
  | .load dstReg addrReg => encodeRR 6 dstReg addrReg
  | .push r => encodeR 7 r
  | .pop r => encodeR 8 r
  | .jmp addr => encodeI 9 addr
  | .jmpZ addr => encodeI 10 addr
  | .jmpNZ addr => encodeI 11 addr
  | .jmpRel off => encodeI 12 off
  | .jmpZRel off => encodeI 13 off
  | .jmpNZRel off => encodeI 14 off

/-! ### The opcode table (R88, with the masks of R85 to R87) -/

/-- One row of spec/opcode_table.json: a word is the row's when `(w & mask) = value`. -/
structure OpcodeRow where
  mask : InstrWord
  value : InstrWord
  deriving DecidableEq, Repr

/-- Whether `w` is a word of the row (R92). -/
def OpcodeRow.admits (row : OpcodeRow) (w : InstrWord) : Bool := w &&& row.mask == row.value

/-- The fifteen rows, in the order of R81. -/
def opcodeTable : List OpcodeRow :=
  [ ⟨0xFFC0FFFF, 0x00000000⟩, ⟨0xFFC0FFFF, 0x10000000⟩, ⟨0xFFC0FFFF, 0x20000000⟩, ⟨0xFFC0FFFF, 0x30000000⟩,
    ⟨0xFFC0FFFF, 0x40000000⟩, ⟨0xFFC0FFFF, 0x50000000⟩, ⟨0xFFC0FFFF, 0x60000000⟩,
    ⟨0xFFC7FFFF, 0x70000000⟩, ⟨0xFFC7FFFF, 0x80000000⟩,
    ⟨0xFFFF0000, 0x90000000⟩, ⟨0xFFFF0000, 0xA0000000⟩, ⟨0xFFFF0000, 0xB0000000⟩,
    ⟨0xFFFF0000, 0xC0000000⟩, ⟨0xFFFF0000, 0xD0000000⟩, ⟨0xFFFF0000, 0xE0000000⟩ ]

/-! ### Words as the table numbers them -/

/-- The instruction word whose low `nbits` bits are those of `w` and whose other bits are zero. -/
def tableWord (nbits w : Nat) : InstrWord := BitVec.ofNat 32 (w % 2 ^ nbits)

/-- The decoder on a word given as the opcode table numbers it: bit 0 is the least significant bit of the one word
(R7, R84). No instruction is longer than 32 bits (R94), so more bits than that are refused (log 13). -/
def decodeTableWord (nbits w : Nat) : Option Instr :=
  if nbits ≤ 32 then (decode (tableWord nbits w)).toOption else none

end Sys2Proof
end

