-- ==== Sys2Proof/Machine/State.lean ====
section
/-! DEFINITION. The state vector of spec/10_state.md R20, the reasons a step can stop, and the state after reset. -/

namespace Sys2Proof.Machine

/-- One word of data memory at an address. Data memory is word-addressed and bytes do not exist (R60), so the cells
hold 16-bit words (log 4). -/
abbrev Cell := Nat × Word

/-- Data memory as plain data: the words that differ from what an unlisted address reads as, by rising address
(log 5). The canonical form is `Memory.wf` (Ops.lean). -/
abbrev Memory := List Cell

/-- The architectural state `(x[0..7], sp, pc, zf, mem[0..CAP-1])` of R20, and beside it the run's parameters. -/
structure State where
  /-- `x[0..7]` (R21). -/
  regs : Vector Word 8
  /-- The stack pointer: the index of the next free word (R24). -/
  sp : Word
  /-- The program counter: an index into the program store (R27). -/
  pc : Word
  /-- The zero flag (R31). -/
  zf : Bool
  /-- Data memory, shared by the stack and by Load and Store (R33, R68). -/
  mem : Memory
  /-- The parameters `MEM_CAPACITY`, `PROG` and `PROG_LEN` of R6: no state in the spec, and written by no step
  (log 1). -/
  cfg : Config
  deriving DecidableEq, Repr

/-- Why a step stops. Every one leaves the caller's state as it was (R39, R44). -/
inductive Fault where
  /-- Raised by Div when the divisor register holds 0 (R201). Safe: the spec's own fault. -/
  | divisionByZero
  /-- Raised by Load and Store at an address at or above `CAP`, and by Pop when `sp > CAP` (R202). Safe: the spec's
  own fault. -/
  | memoryOutOfBounds
  /-- Raised by Push when `sp ≥ CAP` (R203). Safe: the spec's own fault. -/
  | stackOverflow
  /-- Raised by Pop when `sp = 0` (R204). Safe: the spec's own fault. -/
  | stackUnderflow
  /-- Raised by the sequencer only, when the fetched word does not decode (R205). Safe: the spec's own fault. -/
  | illegalInstruction
  /-- The sequencer's `End` (R43): `pc ≥ PROG_LEN`, so the run is over. In the spec `End` is NOT a fault (R205). It
  stands here because the host's `Outcome` has no fourth arm; `Result` (Ports.lean) tells the two apart (log 6). Safe:
  the run stops where the spec's run stops (R236). -/
  | endOfRun
  deriving DecidableEq, Repr

/-- Why the model has no answer. No instruction of this model answers with it (log 16). -/
inductive Refusal where
  /-- An arm of `exec` whose instruction has no meaning yet. Safe: the model stops. No arm is left so. -/
  | notModelled (mnemonic : String)
  deriving DecidableEq, Repr

/-- What a step answers. -/
abbrev Outcome := Host.Outcome State Fault Refusal

/-- The construction state of R230 for given parameters: registers 0 (R23), `sp` 0 (R25), `pc` 0 (R29), `zf` false
(R32), every memory word 0 (R34). -/
def State.initial (c : Config) : State :=
  { regs := Vector.replicate 8 0, sp := 0, pc := 0, zf := false, mem := [], cfg := c }

/-- The machine right after reset (R230), with the parameters of log 2. -/
def State.reset : State := State.initial Config.atReset

end Sys2Proof.Machine
end

