-- ==== Sys2Proof/Machine/Ops.lean ====
section
/-! DEFINITION. The named operations over memory and registers (spec/00_scope.md R8 to R10, spec/20_memory.md): all
reads and writes of the state go through these. -/

namespace Sys2Proof.Machine

/-! ### Data memory as a list -/

/-- What a word that is not listed reads as: 0, the reset value of every memory word (R34). -/
def Memory.unlisted : Word := 0

/-- The word at address `a`. -/
def Memory.read : Memory → Nat → Word
  | [], _ => Memory.unlisted
  | (b, v) :: m, a => if a = b then v else Memory.read m a

/-- The memory with nothing listed at address `a`. -/
def Memory.erase (m : Memory) (a : Nat) : Memory := m.filter fun c => c.1 != a

/-- The memory with an entry put in front of the first entry of a higher address. -/
def Memory.insert (a : Nat) (v : Word) : Memory → Memory
  | [] => [(a, v)]
  | c :: m => if a < c.1 then (a, v) :: c :: m else c :: Memory.insert a v m

/-- The memory with `v` at address `a`: addresses keep rising, and a word equal to the unlisted one is not listed. -/
def Memory.write (m : Memory) (a : Nat) (v : Word) : Memory :=
  if v = Memory.unlisted then Memory.erase m a else Memory.insert a v (Memory.erase m a)

/-- The canonical form: addresses strictly rising, and no word listed that an unlisted address would read as. -/
abbrev Memory.wf (m : Memory) : Prop :=
  m.Pairwise (fun c d => c.1 < d.1) ∧ ∀ c ∈ m, c.2 ≠ Memory.unlisted

/-! ### Registers and the other state elements (R8) -/

/-- `x[r]`. -/
def State.reg (s : State) (r : Reg) : Word := s.regs[r]

/-- `x[r] <- v`. No register is hardwired (R21). -/
def State.setReg (s : State) (r : Reg) (v : Word) : State := { s with regs := s.regs.set r v }

/-- `sp <- v`. -/
def State.setSp (s : State) (v : Word) : State := { s with sp := v }

/-- `pc <- v`. -/
def State.setPc (s : State) (v : Word) : State := { s with pc := v }

/-- `zf <- b`. -/
def State.setZf (s : State) (b : Bool) : State := { s with zf := b }

/-- `CAP` (R8). -/
def State.cap (s : State) : Nat := s.cfg.memCapacity

/-! ### Memory accesses (R9, R61) -/

/-- `MemRead(a, 1)` of R9: one whole word (R63). Every caller checks `a < CAP` first (log 5). -/
def State.memRead (s : State) (a : Word) : Word := Memory.read s.mem a.toNat

/-- `MemWrite(a, 1, v)` of R9: one whole word (R63). Every caller checks `a < CAP` first (log 5). -/
def State.memWrite (s : State) (a : Word) (v : Word) : State := { s with mem := Memory.write s.mem a.toNat v }

/-! ### How an instruction ends (R10, R39) -/

/-- `raise F` of R10: the instruction ends at once with fault `F`, and none of its writes takes effect. This is all
there is to taking an exception on this machine: no state is saved, no mode changes and control goes to no vector
(R210). There is no return from one either (R211). -/
def raise (f : Fault) : Outcome := .fault f

/-- The end of an instruction that raised nothing: its writes are committed together (R39). -/
def commit (s : State) : Outcome := .next s

end Sys2Proof.Machine
end

