-- ==== Sys2Proof/Machine/Operands.lean ====
section
/-! DEFINITION. The machine's arithmetic notation (spec/00_scope.md R11, R12) and its operand forms: a register, a
register-indirect address and a jump target (spec/30_encoding.md R82, R90). -/

namespace Sys2Proof.Machine

/-! ### Arithmetic modulo 2^16 (R12) -/

/-- `z mod 2^16` of R12, for an exact integer `z` of either sign. -/
def wrap (z : Int) : Word := BitVec.ofInt 16 z

/-- `a +16 b` of R12. -/
def add16 (a b : Word) : Word := wrap ((a.toNat : Int) + b.toNat)

/-- `a -16 b` of R12. -/
def sub16 (a b : Word) : Word := wrap ((a.toNat : Int) - b.toNat)

/-- The low 16 bits of the exact product (R113). -/
def mul16 (a b : Word) : Word := wrap ((a.toNat : Int) * b.toNat)

/-- `a div b` of R12 for `b > 0`: the quotient of the unsigned readings, rounded down. -/
def div16 (a b : Word) : Word := wrap ((a.toNat : Int) / b.toNat)

/-! ### Extension and the signed view (R11): they state corner cases, and no instruction uses them -/

/-- `zext_N(v)` of R11. -/
def zext (_n : Nat) (v : Word) : Nat := v.toNat

/-- `sext_N(v)` of R11. -/
def sext (n : Nat) (v : Word) : Nat := if v.toNat < 0x8000 then v.toNat else v.toNat + 2 ^ n - 2 ^ 16

/-- `s16(v)` of R11: the two's-complement reading. -/
def s16 (v : Word) : Int := if v.toNat < 0x8000 then v.toNat else (v.toNat : Int) - 65536

/-! ### Operand forms -/

/-- A register operand read as a value (R82). -/
def regOperand (r : Reg) (s : State) : Word := s.reg r

/-- The address of a register-indirect operand: the register's value, with no displacement, no scaling and no change
of the base register (R131, R132). -/
def indirect (addrReg : Reg) (s : State) : Word := s.reg addrReg

/-- The target of an absolute jump: the immediate as it stands (R90). -/
def absoluteTarget (addr : Word) (_s : State) : Word := addr

/-- The target of a relative jump: `pc +16 off`, with the `pc` the step sees on entry (R170). -/
def relativeTarget (off : Word) (s : State) : Word := add16 s.pc off

/-- Whether address `a` is in bounds: `a < CAP` (R61). -/
def inBounds (a : Word) (s : State) : Bool := decide (a.toNat < s.cap)

end Sys2Proof.Machine
end

