-- ==== Sys2Proof/Machine/Flags.lean ====
section
/-! DEFINITION. The zero flag, the machine's only condition code (spec/10_state.md R31, R35): the two conditions that
read it, and what an arithmetic result does to it, which is nothing. -/

namespace Sys2Proof.Machine

/-- The condition of JmpZ and JmpZRel: the flag is set (R31). -/
def zeroFlagSet (s : State) : Bool := s.zf

/-- The condition of JmpNZ and JmpNZRel: the flag is clear (R31). -/
def zeroFlagClear (s : State) : Bool := !s.zf

/-- The flag after an arithmetic result: under the one policy, `never`, the flag keeps its value whatever the result
(R31, R110, D7). -/
def flagAfterResult (old : Bool) (_result : Word) : Bool :=
  match Config.zfPolicy with
  | .never => old

/-- The end of an arithmetic instruction: the result goes to `x[r1]`, and the flag is what the policy says (R110). -/
def writeResult (r1 : Reg) (result : Word) (s : State) : State :=
  (s.setReg r1 result).setZf (flagAfterResult s.zf result)

end Sys2Proof.Machine
end

