-- ==== Sys2Proof/Machine/Arithmetic.lean ====
section
/-! DEFINITION. Add, Sub, Mul and Div (spec/40_arithmetic.md R110 to R115). -/

namespace Sys2Proof.Machine

/-- Add(r1, r2), R111: `x[r1] <- (x[r1] + x[r2]) mod 2^16`. -/
def execAdd (r1 r2 : Reg) (s : State) : Outcome :=
  commit (writeResult r1 (add16 (regOperand r1 s) (regOperand r2 s)) s)

/-- Sub(r1, r2), R112: `x[r1] <- (x[r1] − x[r2]) mod 2^16`. -/
def execSub (r1 r2 : Reg) (s : State) : Outcome :=
  commit (writeResult r1 (sub16 (regOperand r1 s) (regOperand r2 s)) s)

/-- Mul(r1, r2), R113: `x[r1] <- (x[r1] × x[r2]) mod 2^16`. -/
def execMul (r1 r2 : Reg) (s : State) : Outcome :=
  commit (writeResult r1 (mul16 (regOperand r1 s) (regOperand r2 s)) s)

/-- Div(r1, r2), R114: the divisor is read and tested before any write. -/
def execDiv (r1 r2 : Reg) (s : State) : Outcome :=
  let d := regOperand r2 s
  if d = 0 then raise .divisionByZero
  else commit (writeResult r1 (div16 (regOperand r1 s) d) s)

end Sys2Proof.Machine
end

