-- ==== Sys2Proof/Machine/ControlTransfer.lean ====
section
/-! DEFINITION. The six jumps (spec/43_control_transfer.md R170 to R178). None faults, and none writes anything but
`pc`. -/

namespace Sys2Proof.Machine

/-- A jump to `target` taken when `taken` holds; a jump not taken leaves `pc` as it is (R170). -/
def jumpIf (taken : Bool) (target : Word) (s : State) : Outcome :=
  commit (if taken then s.setPc target else s)

/-- Jmp(addr), R171. -/
def execJmp (addr : Word) (s : State) : Outcome := jumpIf true (absoluteTarget addr s) s

/-- JmpZ(addr), R172. -/
def execJmpZ (addr : Word) (s : State) : Outcome := jumpIf (zeroFlagSet s) (absoluteTarget addr s) s

/-- JmpNZ(addr), R173. -/
def execJmpNZ (addr : Word) (s : State) : Outcome := jumpIf (zeroFlagClear s) (absoluteTarget addr s) s

/-- JmpRel(off), R174. -/
def execJmpRel (off : Word) (s : State) : Outcome := jumpIf true (relativeTarget off s) s

/-- JmpZRel(off), R175. -/
def execJmpZRel (off : Word) (s : State) : Outcome := jumpIf (zeroFlagSet s) (relativeTarget off s) s

/-- JmpNZRel(off), R176. -/
def execJmpNZRel (off : Word) (s : State) : Outcome := jumpIf (zeroFlagClear s) (relativeTarget off s) s

end Sys2Proof.Machine
end

