-- ==== Sys2Proof/Machine/DataMovement.lean ====
section
/-! DEFINITION. Mov, Store and Load (spec/41_data_movement.md R130 to R132). -/

namespace Sys2Proof.Machine

/-- Mov(r1, r2), R130: `x[r1] <- x[r2]`. -/
def execMov (r1 r2 : Reg) (s : State) : Outcome :=
  commit (s.setReg r1 (regOperand r2 s))

/-- Store(addr_reg, val_reg), R131: `mem[x[addr_reg]] <- x[val_reg]`, or MemoryOutOfBounds. -/
def execStore (addrReg valReg : Reg) (s : State) : Outcome :=
  let ea := indirect addrReg s
  if inBounds ea s then commit (s.memWrite ea (regOperand valReg s))
  else raise .memoryOutOfBounds

/-- Load(dst_reg, addr_reg), R132: `x[dst_reg] <- mem[x[addr_reg]]`, or MemoryOutOfBounds. The address is read before
the register is written. -/
def execLoad (dstReg addrReg : Reg) (s : State) : Outcome :=
  let ea := indirect addrReg s
  if inBounds ea s then commit (s.setReg dstReg (s.memRead ea))
  else raise .memoryOutOfBounds

end Sys2Proof.Machine
end

