-- ==== Sys2Proof/Machine/Stack.lean ====
section
/-! DEFINITION. Push and Pop (spec/42_stack.md R150 to R153). The stack grows upward in data memory, and `sp` is the
index of the next free word. -/

namespace Sys2Proof.Machine

/-- Push(r), R151: `mem[sp] <- x[r]`, then `sp <- sp + 1`; StackOverflow when `sp ≥ CAP`. -/
def execPush (r : Reg) (s : State) : Outcome :=
  if inBounds s.sp s then
    commit ((s.memWrite s.sp (regOperand r s)).setSp (add16 s.sp 1))
  else raise .stackOverflow

/-- Pop(r), R152: `sp <- sp − 1`, then `x[r] <- mem[sp]`. StackUnderflow when `sp = 0` is tested first, and
MemoryOutOfBounds when `sp − 1 ≥ CAP` second (R209, D10). The popped word stays in memory. -/
def execPop (r : Reg) (s : State) : Outcome :=
  if s.sp = 0 then raise .stackUnderflow
  else
    let top := sub16 s.sp 1
    if inBounds top s then commit ((s.setSp top).setReg r (s.memRead top))
    else raise .memoryOutOfBounds

end Sys2Proof.Machine
end

