-- ==== Sys2Proof/Machine/Dispatch.lean ====
section
/-! DEFINITION. The step port of spec/10_state.md R38: one instruction applied to the state, one meaning for each of
the 15 variants. -/

namespace Sys2Proof.Machine

def exec (i : Instr) (s : State) : Host.Outcome State Fault Refusal :=
  match i with
  | .add r1 r2 => Sys2Proof.Machine.execAdd r1 r2 s
  | .sub r1 r2 => Sys2Proof.Machine.execSub r1 r2 s
  | .mul r1 r2 => Sys2Proof.Machine.execMul r1 r2 s
  | .div r1 r2 => Sys2Proof.Machine.execDiv r1 r2 s
  | .mov r1 r2 => Sys2Proof.Machine.execMov r1 r2 s
  | .store addrReg valReg => Sys2Proof.Machine.execStore addrReg valReg s
  | .load dstReg addrReg => Sys2Proof.Machine.execLoad dstReg addrReg s
  | .push r => Sys2Proof.Machine.execPush r s
  | .pop r => Sys2Proof.Machine.execPop r s
  | .jmp addr => Sys2Proof.Machine.execJmp addr s
  | .jmpZ addr => Sys2Proof.Machine.execJmpZ addr s
  | .jmpNZ addr => Sys2Proof.Machine.execJmpNZ addr s
  | .jmpRel off => Sys2Proof.Machine.execJmpRel off s
  | .jmpZRel off => Sys2Proof.Machine.execJmpZRel off s
  | .jmpNZRel off => Sys2Proof.Machine.execJmpNZRel off s

end Sys2Proof.Machine
end

