-- ==== Sys2Proof/Machine/Sequencer.lean ====
section
/-! DEFINITION. The sequencer of spec/10_state.md R42: fetch from the program store, decode, advance `pc`, step. -/

namespace Sys2Proof.Machine

/-- `PROG[pc]`, or nothing when `pc ≥ PROG_LEN` (R42, R43). Fetch reads the program store only (R73). -/
def fetchWord (s : State) : Option InstrWord := s.cfg.prog[s.pc.toNat]?

/-- `S with pc = p +16 1`: the advance that happens before the instruction runs (R42). -/
def advancePc (s : State) : State := s.setPc (add16 s.pc 1)

/-- One cycle (R42), with the checks in the order of R209: end of the program, then decoding, then the instruction's
own fault. -/
def sequencerCycle (s : State) : Outcome :=
  match fetchWord s with
  | none => raise .endOfRun
  | some w =>
    match decode w with
    | .error _ => raise .illegalInstruction
    | .ok i => exec i (advancePc s)

/-- The program store with word `w` at index `n`. Where the store is shorter, the words between are illegal ones
(log 3). -/
def placeWord (prog : List InstrWord) (n : Nat) (w : InstrWord) : List InstrWord :=
  if n < prog.length then prog.set n w
  else prog ++ List.replicate (n - prog.length) 0xF0000000#32 ++ [w]

/-- The state with `w` at the index that the next fetch reads, and nothing else changed. -/
def placeFetchWord (s : State) (w : InstrWord) : State :=
  { s with cfg := { s.cfg with prog := placeWord s.cfg.prog s.pc.toNat w } }

end Sys2Proof.Machine
end

