-- ==== Sys2Proof/Machine/Step.lean ====
section
/-! DEFINITION. One step of the machine: one cycle of the sequencer (spec/10_state.md R42). -/

namespace Sys2Proof.Machine

/-- One cycle of the sequencer from state `s`. A fault, or the end of the run, leaves the caller's `s` as the state
(R43, R44). -/
def step (s : State) : Host.Outcome State Fault Refusal := sequencerCycle s

/-- `s` with an instruction word, given as spec/opcode_table.json numbers its bits, where `step` fetches next. -/
def State.withFetchWord (s : State) (nbits w : Nat) : State := placeFetchWord s (tableWord nbits w)

end Sys2Proof.Machine
end

