-- ==== Sys2Proof/Machine/Assembly.lean ====
section
/-! DEFINITION. The textual syntax of spec/30_encoding.md R96 to R99: `Mnemonic(op1, op2)`, read from and written to a
list of characters. The details those rules leave open are log 11's. -/

namespace Sys2Proof.Machine

/-! ### Tokens -/

/-- A piece of a line: a run of other characters, or one of the three marks. -/
inductive Token where
  | run (cs : List Char)
  | openParen
  | closeParen
  | comma
  deriving DecidableEq, Repr

/-- A finished run of characters in front of the tokens after it; an empty run is no token. -/
def flushRun : List Char → List Token → List Token
  | [], ts => ts
  | c :: cs, ts => .run (c :: cs) :: ts

/-- Reading from the right: the run that the text begins with, and the tokens after that run. -/
def lex : List Char → List Char × List Token
  | [] => ([], [])
  | c :: cs =>
    let after := lex cs
    if c = ' ' then ([], flushRun after.1 after.2)
    else if c = '(' then ([], .openParen :: flushRun after.1 after.2)
    else if c = ')' then ([], .closeParen :: flushRun after.1 after.2)
    else if c = ',' then ([], .comma :: flushRun after.1 after.2)
    else (c :: after.1, after.2)

/-- The tokens of a line. Spaces separate tokens and are otherwise dropped ("optional spaces", R96). -/
def tokens (cs : List Char) : List Token := flushRun (lex cs).1 (lex cs).2

/-! ### Operands -/

/-- A register's number `N` of R97: one digit, 0 to 7. -/
def digitReg (c : Char) : Option Reg :=
  if h : 48 ≤ c.toNat ∧ c.toNat < 56 then some ⟨c.toNat - 48, by omega⟩ else none

/-- A register operand of R97: `rN` or `N`; any other spelling is refused. -/
def parseReg : List Char → Option Reg
  | [c] => digitReg c
  | ['r', c] => digitReg c
  | _ => none

/-- The value of a decimal or hex digit, in either case. -/
def digitValue (c : Char) : Option Nat :=
  if 48 ≤ c.toNat ∧ c.toNat < 58 then some (c.toNat - 48)
  else if 97 ≤ c.toNat ∧ c.toNat < 103 then some (c.toNat - 87)
  else if 65 ≤ c.toNat ∧ c.toNat < 71 then some (c.toNat - 55)
  else none

/-- The digits that follow a number read so far. -/
def parseDigits (base acc : Nat) : List Char → Option Nat
  | [] => some acc
  | c :: cs =>
    (digitValue c).bind fun d => if d < base then parseDigits base (acc * base + d) cs else none

/-- A number of at least one digit. -/
def parseNumber (base : Nat) : List Char → Option Nat
  | [] => none
  | c :: cs => parseDigits base 0 (c :: cs)

/-- The integer of R98: `0x` and hex digits, or a decimal integer, which may be negative. -/
def parseInteger : List Char → Option Int
  | '0' :: 'x' :: cs => (parseNumber 16 cs).map Int.ofNat
  | '-' :: cs => (parseNumber 10 cs).map fun n => -Int.ofNat n
  | cs => (parseNumber 10 cs).map Int.ofNat

/-- The range of R98: -32768 to 65535, a negative `v` standing for `v + 65536`; outside it the value is refused and
never truncated. -/
def immediateOf (z : Int) : Option Word :=
  if -32768 ≤ z ∧ z ≤ 65535 then some (wrap z) else none

/-- An immediate operand of R98. -/
def parseImmediate (cs : List Char) : Option Word := (parseInteger cs).bind immediateOf

/-! ### Instructions -/

/-- The entry of a table under a name, letter for letter: mnemonics are case-sensitive (R96). -/
def lookupName {α : Type} (name : List Char) : List (String × α) → Option α
  | [] => none
  | (n, a) :: rest => if name = n.toList then some a else lookupName name rest

/-- The variants with two register operands (R81). -/
def twoRegisterNames : List (String × (Reg → Reg → Instr)) :=
  [("Add", .add), ("Sub", .sub), ("Mul", .mul), ("Div", .div), ("Mov", .mov), ("Store", .store), ("Load", .load)]

/-- The variants with one register operand (R81). -/
def oneRegisterNames : List (String × (Reg → Instr)) := [("Push", .push), ("Pop", .pop)]

/-- The variants with one immediate operand (R81). -/
def immediateNames : List (String × (Word → Instr)) :=
  [("Jmp", .jmp), ("JmpZ", .jmpZ), ("JmpNZ", .jmpNZ), ("JmpRel", .jmpRel), ("JmpZRel", .jmpZRel),
   ("JmpNZRel", .jmpNZRel)]

/-- An instruction with two operands. -/
def parseTwo (name a b : List Char) : Option Instr :=
  (lookupName name twoRegisterNames).bind fun v =>
    (parseReg a).bind fun ra => (parseReg b).map fun rb => v ra rb

/-- An instruction with one operand. -/
def parseOne (name a : List Char) : Option Instr :=
  match lookupName name oneRegisterNames with
  | some v => (parseReg a).map v
  | none => (lookupName name immediateNames).bind fun v => (parseImmediate a).map v

/-- A line of the textual syntax (R96). There are no pseudo-instructions, labels, directives or macros (R99). -/
def parseInstr (cs : List Char) : Option Instr :=
  match tokens cs with
  | [.run name, .openParen, .run a, .comma, .run b, .closeParen] => parseTwo name a b
  | [.run name, .openParen, .run a, .closeParen] => parseOne name a
  | _ => none

/-! ### Writing an instruction out -/

/-- A register as `rN` (R97). -/
def printReg (r : Reg) : List Char := ['r', Nat.digitChar r.val]

/-- An immediate as `0x` and four hex digits (R98). -/
def printImmediate (w : Word) : List Char :=
  ['0', 'x', Nat.digitChar (w.toNat / 4096), Nat.digitChar (w.toNat / 256 % 16),
    Nat.digitChar (w.toNat / 16 % 16), Nat.digitChar (w.toNat % 16)]

/-- A mnemonic and two operands. -/
def printTwo (name : String) (a b : List Char) : List Char :=
  name.toList ++ '(' :: a ++ [',', ' '] ++ b ++ [')']

/-- A mnemonic and one operand. -/
def printOne (name : String) (a : List Char) : List Char := name.toList ++ '(' :: a ++ [')']

/-- An instruction in the notation of R96. -/
def printInstr : Instr → List Char
  | .add r1 r2 => printTwo "Add" (printReg r1) (printReg r2)
  | .sub r1 r2 => printTwo "Sub" (printReg r1) (printReg r2)
  | .mul r1 r2 => printTwo "Mul" (printReg r1) (printReg r2)
  | .div r1 r2 => printTwo "Div" (printReg r1) (printReg r2)
  | .mov r1 r2 => printTwo "Mov" (printReg r1) (printReg r2)
  | .store addrReg valReg => printTwo "Store" (printReg addrReg) (printReg valReg)
  | .load dstReg addrReg => printTwo "Load" (printReg dstReg) (printReg addrReg)
  | .push r => printOne "Push" (printReg r)
  | .pop r => printOne "Pop" (printReg r)
  | .jmp addr => printOne "Jmp" (printImmediate addr)
  | .jmpZ addr => printOne "JmpZ" (printImmediate addr)
  | .jmpNZ addr => printOne "JmpNZ" (printImmediate addr)
  | .jmpRel off => printOne "JmpRel" (printImmediate off)
  | .jmpZRel off => printOne "JmpZRel" (printImmediate off)
  | .jmpNZRel off => printOne "JmpNZRel" (printImmediate off)

/-- A line assembled into its word (R95, R96). -/
def assemble (cs : List Char) : Option InstrWord := (parseInstr cs).map encode

end Sys2Proof.Machine
end

