-- ==== Sys2Proof/Machine/HostPort.lean ====
section
/-! DEFINITION. What the host does to the machine between transactions, beside running it: construction, the reset
input, loading a program (spec/70_reset_and_hazards.md R230, R231, R234), the state-access port and the snapshot
(spec/10_state.md R45 to R47). -/

namespace Sys2Proof.Machine

/-! ### Construction, reset input, program -/

/-- Construction with a chosen capacity (R230). A capacity outside R6's range is refused (D9). Taking the program too, and
refusing one longer than R6 allows, is the model's choice (log 14). -/
def construct (capacity : Nat) (prog : List InstrWord) : Option State :=
  let c : Config := { memCapacity := capacity, prog := prog }
  if c.wf then some (State.initial c) else none

/-- The reset input (R231): the construction state, with `MEM_CAPACITY`, `PROG` and `PROG_LEN` kept. -/
def resetInput (s : State) : State := State.initial s.cfg

/-- The loader places the program in the program store (R234, R47); no state element changes (log 15). A program longer
than R6 allows is declined (log 10). -/
def loadProgram (prog : List InstrWord) (s : State) : Option State :=
  let c : Config := { s.cfg with prog := prog }
  if c.prog.length ≤ 65536 then some { s with cfg := c } else none

/-! ### The state-access port (R45) -/

/-- An element of the state vector (R20). -/
inductive Element where
  | reg (r : Reg)
  | sp
  | pc
  | zf
  | mem (a : Word)
  deriving DecidableEq, Repr

/-- A value of an element: a 16-bit word, or a boolean for `zf` (R45). -/
inductive HostValue where
  | word (v : Word)
  | flag (b : Bool)
  deriving DecidableEq, Repr

/-- The host reads an element. Nothing is read at an address at or above `CAP`, where there is no word (log 10). -/
def hostRead (e : Element) (s : State) : Option HostValue :=
  match e with
  | .reg r => some (.word (s.reg r))
  | .sp => some (.word s.sp)
  | .pc => some (.word s.pc)
  | .zf => some (.flag s.zf)
  | .mem a => if inBounds a s then some (.word (s.memRead a)) else none

/-- The host writes an element: any register, `sp`, `pc`, `zf`, or a memory word below `CAP`. The value must be a
word, or a boolean for `zf` (R45). Anything else is declined (log 10). -/
def hostWrite (e : Element) (v : HostValue) (s : State) : Option State :=
  match e, v with
  | .reg r, .word w => some (s.setReg r w)
  | .sp, .word w => some (s.setSp w)
  | .pc, .word w => some (s.setPc w)
  | .zf, .flag b => some (s.setZf b)
  | .mem a, .word w => if inBounds a s then some (s.memWrite a w) else none
  | _, _ => none

/-! ### The snapshot (R46) -/

/-- The elements in the order of R46: `x[0], …, x[7], sp, pc, zf, mem[0], …, mem[CAP-1]`. -/
def snapshotElements (cap : Nat) : List Element :=
  [.reg 0, .reg 1, .reg 2, .reg 3, .reg 4, .reg 5, .reg 6, .reg 7, .sp, .pc, .zf] ++
    (List.range cap).map fun a => .mem (BitVec.ofNat 16 a)

/-- A value as a snapshot entry: `zf` is 1 for true and 0 for false (R46). -/
def HostValue.toWord : HostValue → Word
  | .word v => v
  | .flag b => if b then 1 else 0

/-- An element's snapshot entry. -/
def elementWord (s : State) : Element → Word
  | .reg r => s.reg r
  | .sp => s.sp
  | .pc => s.pc
  | .zf => (HostValue.flag s.zf).toWord
  | .mem a => s.memRead a

/-- The snapshot of R46: `11 + CAP` entries. -/
def snapshot (s : State) : List Word := (snapshotElements s.cap).map (elementWord s)

/-- The value that a snapshot entry stands for. For `zf` only 1 and 0 stand for one (log 10). -/
def entryValue : Element → Word → Option HostValue
  | .zf, w => if w = 1 then some (.flag true) else if w = 0 then some (.flag false) else none
  | _, w => some (.word w)

/-- The host writes a list of elements, one after another. -/
def writeEntries : List (Element × Word) → State → Option State
  | [], s => some s
  | (e, w) :: rest, s => ((entryValue e w).bind fun v => hostWrite e v s).bind (writeEntries rest)

/-- Restoring a snapshot is the host writing each element (R46), into a machine of the same capacity only (D13). -/
def restore (entries : List Word) (s : State) : Option State :=
  if entries.length = 11 + s.cap then writeEntries ((snapshotElements s.cap).zip entries) s else none

/-! ### The serialised snapshot (R46, D13) -/

/-- The two bytes of a word in a given order. -/
def wordBytes (o : ByteOrder) (w : Word) : List (BitVec 8) :=
  match o with
  | .littleEndian => [w.extractLsb' 0 8, w.extractLsb' 8 8]
  | .bigEndian => [w.extractLsb' 8 8, w.extractLsb' 0 8]

/-- The word of two bytes in a given order. -/
def bytesWord (o : ByteOrder) (first second : BitVec 8) : Word :=
  match o with
  | .littleEndian => second ++ first
  | .bigEndian => first ++ second

/-- A list of words as bytes. -/
def serialise (o : ByteOrder) (ws : List Word) : List (BitVec 8) := ws.flatMap (wordBytes o)

/-- A list of bytes as words. An odd number of bytes is no list of words. -/
def deserialise (o : ByteOrder) : List (BitVec 8) → Option (List Word)
  | [] => some []
  | [_] => none
  | a :: b :: rest => (deserialise o rest).map (bytesWord o a b :: ·)

/-- The snapshot as bytes, in the order that R46 leaves open (log 9). -/
def snapshotBytes (s : State) : List (BitVec 8) := serialise Config.snapshotByteOrder (snapshot s)

/-- A state restored from a snapshot's bytes. -/
def restoreBytes (bytes : List (BitVec 8)) (s : State) : Option State :=
  (deserialise Config.snapshotByteOrder bytes).bind (restore · s)

end Sys2Proof.Machine
end

