-- ==== Sys2Proof/Machine/Ports.lean ====
section
/-! DEFINITION. The block's transactions as the host meets them: the step port, the sequencer port, their results and
result codes, and one function for every interaction of spec/10_state.md R37 and R47 with a constructed machine. -/

namespace Sys2Proof.Machine

/-- The seven results of spec/60_exceptions.md R206. `ended` is `End`, which is no fault (R205). -/
inductive Result where
  | ok
  | divisionByZero
  | memoryOutOfBounds
  | stackOverflow
  | stackUnderflow
  | illegalInstruction
  | ended
  deriving DecidableEq, Repr

/-- The numeric result code of R206. -/
def Result.code : Result → Nat
  | .ok => 0
  | .divisionByZero => 1
  | .memoryOutOfBounds => 2
  | .stackOverflow => 3
  | .stackUnderflow => 4
  | .illegalInstruction => 5
  | .ended => 6

/-- Whether the spec calls the result a fault (R205): all but `Ok` and `End`. -/
def Result.isFault : Result → Bool
  | .ok => false
  | .ended => false
  | _ => true

/-- The result that a stop reason stands for (log 6). -/
def Result.ofFault : Fault → Result
  | .divisionByZero => .divisionByZero
  | .memoryOutOfBounds => .memoryOutOfBounds
  | .stackOverflow => .stackOverflow
  | .stackUnderflow => .stackUnderflow
  | .illegalInstruction => .illegalInstruction
  | .endOfRun => .ended

/-- The result of an outcome. A refusal has none, and no instruction is refused (log 16). -/
def Result.ofOutcome : Outcome → Option Result
  | .next _ => some .ok
  | .fault f => some (Result.ofFault f)
  | .refused _ => none

/-- The state after a transaction that began in `s`: exactly `s` when it did not complete (R39, R44; log 7). -/
def stateAfter (s : State) : Outcome → State
  | .next t => t
  | .fault _ => s
  | .refused _ => s

/-- The step port (R38, R39): one instruction presented, one result, and the state afterwards. `pc` is not advanced
(R28). -/
def stepPort (i : Instr) (s : State) : Option Result × State :=
  (Result.ofOutcome (exec i s), stateAfter s (exec i s))

/-- The sequencer port, `cycle()` of R42: one result, and the state afterwards. -/
def cycle (s : State) : Option Result × State :=
  (Result.ofOutcome (step s), stateAfter s (step s))

/-- The host's interactions with a constructed machine (R47). -/
inductive Interaction where
  | reset
  | loadProgram (prog : List InstrWord)
  | read (e : Element)
  | write (e : Element) (v : HostValue)
  | step (i : Instr)
  | cycle
  deriving DecidableEq, Repr

/-- What the host gets back (R47). `declined` is a request that the port does not take (log 10). -/
inductive Reply where
  | nothing
  | value (v : HostValue)
  | result (r : Option Result)
  | declined
  deriving DecidableEq, Repr

/-- The reply to a request that changes state when the port takes it. -/
def accepted (s : State) : Option State → Reply × State
  | some t => (.nothing, t)
  | none => (.declined, s)

/-- One interaction (R47). At most one is in progress at a time, and each is a single transition (R37, R66). -/
def interact (s : State) : Interaction → Reply × State
  | .reset => (.nothing, resetInput s)
  | .loadProgram p => accepted s (loadProgram p s)
  | .read e => ((hostRead e s).elim .declined .value, s)
  | .write e v => accepted s (hostWrite e v s)
  | .step i => (.result (stepPort i s).1, (stepPort i s).2)
  | .cycle => (.result (Sys2Proof.Machine.cycle s).1, (Sys2Proof.Machine.cycle s).2)

end Sys2Proof.Machine
end

