-- ==== Sys2Proof/Safety.lean ====
section
/-! DEFINITION. The terms in which claims about this machine are stated: what a legal state and a safe run are, which
faults an instruction raises and when, which registers it reads and writes, where a jump goes, and what it means that
two states agree. -/

namespace Sys2Proof.Safety

open Sys2Proof.Machine

/-! ### Legal states and runs -/

/-- Every listed word of data memory lies below `CAP` (R33). -/
abbrev MemoryInBounds (s : State) : Prop := ∀ c ∈ s.mem, c.1 < s.cap

/-- What holds of every machine that was constructed: its parameters are in the ranges of R6, and its memory is in
canonical form and inside the capacity. -/
abbrev Legal (s : State) : Prop := s.cfg.wf = true ∧ Memory.wf s.mem ∧ MemoryInBounds s

/-- The stack invariant `sp ≤ CAP` of R26, the named launch premise. Only a host write can break it. -/
abbrev StackWithinCapacity (s : State) : Prop := s.sp.toNat ≤ s.cap

/-- The invariant that every step keeps. -/
abbrev Inv (s : State) : Prop := Legal s ∧ StackWithinCapacity s

/-- `n` cycles of the sequencer, stopping where the run ends (R236). -/
def run (n : Nat) (s : State) : Outcome := Host.Core.run Sys2Proof.core n s

/-- Within `n` cycles the run meets no fault; reaching the program's end is no fault (R205, R236). -/
def RunsWithoutFault (n : Nat) (s : State) : Prop := ∀ f, run n s = .fault f → f = .endOfRun

/-- After `n` completed cycles the run ends normally in state `t` (R236). -/
def EndsNormally (n : Nat) (s t : State) : Prop := run n s = .next t ∧ (cycle t).1 = some .ended

/-- Every register and every memory word is 0 (R235). -/
def AllZero (s : State) : Prop := (∀ r, s.reg r = 0) ∧ ∀ a, s.memRead a = 0

/-! ### Agreement of two states -/

/-- Every register holds what it held. -/
def SameRegs (s t : State) : Prop := ∀ q, t.reg q = s.reg q

/-- Every register but `r` holds what it held. -/
def SameRegsBut (r : Reg) (s t : State) : Prop := ∀ q, q ≠ r → t.reg q = s.reg q

/-- Every word of memory reads as it did. -/
def SameMemory (s t : State) : Prop := ∀ a, t.memRead a = s.memRead a

/-- Every word of memory but the one at `a` reads as it did. -/
def SameMemoryBut (a : Word) (s t : State) : Prop := ∀ b, b ≠ a → t.memRead b = s.memRead b

/-- An outcome with its next state changed, and a stop left as it is. -/
def onNext (f : State → State) : Outcome → Outcome
  | .next t => .next (f t)
  | .fault e => .fault e
  | .refused r => .refused r

/-- The state with another data memory. -/
def withMem (m : Memory) (s : State) : State := { s with mem := m }

/-! ### The tables of the spec -/

/-- The fault table of R200, with the bounds of R61: instruction `i` in state `s` raises `f`. -/
def FaultCause (i : Instr) (s : State) (f : Fault) : Prop :=
  match i with
  | .div _ r2 => f = .divisionByZero ∧ (s.reg r2).toNat = 0
  | .store addrReg _ => f = .memoryOutOfBounds ∧ s.cap ≤ (s.reg addrReg).toNat
  | .load _ addrReg => f = .memoryOutOfBounds ∧ s.cap ≤ (s.reg addrReg).toNat
  | .push _ => f = .stackOverflow ∧ s.cap ≤ s.sp.toNat
  | .pop _ => (f = .stackUnderflow ∧ s.sp.toNat = 0) ∨ (f = .memoryOutOfBounds ∧ s.cap < s.sp.toNat)
  | .add _ _ => False
  | .sub _ _ => False
  | .mul _ _ => False
  | .mov _ _ => False
  | .jmp _ => False
  | .jmpZ _ => False
  | .jmpNZ _ => False
  | .jmpRel _ => False
  | .jmpZRel _ => False
  | .jmpNZRel _ => False

/-- The registers an instruction reads, by the table of R22. -/
def readsRegs : Instr → List Reg
  | .add r1 r2 => [r1, r2]
  | .sub r1 r2 => [r1, r2]
  | .mul r1 r2 => [r1, r2]
  | .div r1 r2 => [r1, r2]
  | .mov _ r2 => [r2]
  | .store addrReg valReg => [addrReg, valReg]
  | .load _ addrReg => [addrReg]
  | .push r => [r]
  | .pop _ => []
  | .jmp _ => []
  | .jmpZ _ => []
  | .jmpNZ _ => []
  | .jmpRel _ => []
  | .jmpZRel _ => []
  | .jmpNZRel _ => []

/-- The registers an instruction writes, by the table of R22. -/
def writesRegs : Instr → List Reg
  | .add r1 _ => [r1]
  | .sub r1 _ => [r1]
  | .mul r1 _ => [r1]
  | .div r1 _ => [r1]
  | .mov r1 _ => [r1]
  | .store _ _ => []
  | .load dstReg _ => [dstReg]
  | .push _ => []
  | .pop r => [r]
  | .jmp _ => []
  | .jmpZ _ => []
  | .jmpNZ _ => []
  | .jmpRel _ => []
  | .jmpZRel _ => []
  | .jmpNZRel _ => []

/-- Where a jump goes when it is taken, and nothing for a jump not taken and for any other instruction (R28, R170). -/
def takenJump (i : Instr) (s : State) : Option Word :=
  match i with
  | .jmp addr => some addr
  | .jmpZ addr => if s.zf = true then some addr else none
  | .jmpNZ addr => if s.zf = false then some addr else none
  | .jmpRel off => some (s.pc + off)
  | .jmpZRel off => if s.zf = true then some (s.pc + off) else none
  | .jmpNZRel off => if s.zf = false then some (s.pc + off) else none
  | .add _ _ => none
  | .sub _ _ => none
  | .mul _ _ => none
  | .div _ _ => none
  | .mov _ _ => none
  | .store _ _ => none
  | .load _ _ => none
  | .push _ => none
  | .pop _ => none

/-- The instructions that read or write `sp` (R24). -/
def usesStack : Instr → Bool
  | .push _ => true
  | .pop _ => true
  | _ => false

/-- The instructions that write a word of data memory (R62). -/
def writesMemory : Instr → Bool
  | .store _ _ => true
  | .push _ => true
  | _ => false

/-- The instructions that read a word of data memory (R62). -/
def readsMemory : Instr → Bool
  | .load _ _ => true
  | .pop _ => true
  | _ => false

/-- The instructions that read the zero flag (R31). -/
def readsZeroFlag : Instr → Bool
  | .jmpZ _ => true
  | .jmpNZ _ => true
  | .jmpZRel _ => true
  | .jmpNZRel _ => true
  | _ => false

/-- The instructions that can write `pc` inside the step port: the six jumps (R28). -/
def isJump : Instr → Bool
  | .jmp _ => true
  | .jmpZ _ => true
  | .jmpNZ _ => true
  | .jmpRel _ => true
  | .jmpZRel _ => true
  | .jmpNZRel _ => true
  | _ => false

end Sys2Proof.Safety
end

