-- ==== Sys2Proof/Certificates/Slice0/Obligations.lean ====
section
/-! DEFINITION. The statements about the machine, from the numbered rules of spec/. -/

open Sys2Proof Sys2Proof.Machine Sys2Proof.Safety

/-! ### Construction and reset -/

/-- R230 with R23, R25, R29 and R34: construction with any legal parameters succeeds and sets every state element to its
reset value. -/
def Obligations.ConstructionSetsEveryElement : Prop :=
  ∀ (capacity : Nat) (prog : List InstrWord), capacity ≤ 65535 → prog.length ≤ 65536 →
    ∃ s, construct capacity prog = some s ∧ (∀ r, s.reg r = 0) ∧ s.sp = 0 ∧ s.pc = 0 ∧ s.zf = false ∧
      (∀ a, s.memRead a = 0) ∧ s.cfg.memCapacity = capacity ∧ s.cfg.prog = prog

/-- Exactly the configurations outside the ranges of R6 are refused. That a capacity of 65536 is refused is D9's; that
construction takes a program, and refuses one of more than 65536 words, is the model's own choice (log 14). -/
def Obligations.ConstructionRefusesIllegalConfigurations : Prop :=
  ∀ (capacity : Nat) (prog : List InstrWord),
    construct capacity prog = none ↔ 65535 < capacity ∨ 65536 < prog.length

/-- R231: the reset input puts every element at its reset value, keeps the parameters, and gives the state that
constructing a machine with those parameters gives. -/
def Obligations.ResetInputRestoresConstruction : Prop :=
  ∀ s : State,
    (∀ r, (resetInput s).reg r = 0) ∧ (resetInput s).sp = 0 ∧ (resetInput s).pc = 0 ∧ (resetInput s).zf = false ∧
    (∀ a, (resetInput s).memRead a = 0) ∧ (resetInput s).cfg = s.cfg ∧
    (s.cfg.wf = true → construct s.cfg.memCapacity s.cfg.prog = some (resetInput s))

/-! ### The fifteen instructions: word, result, frame and faults -/

/-- R111. -/
def Obligations.AddWrapsIntoFirstRegister : Prop :=
  ∀ (r1 r2 : Reg) (s : State),
    encode (.add r1 r2) = 0x00000000#32 ||| (BitVec.ofNat 32 r1.val <<< 19) ||| (BitVec.ofNat 32 r2.val <<< 16) ∧
    ∃ t, exec (.add r1 r2) s = .next t ∧
      (t.reg r1).toNat = ((s.reg r1).toNat + (s.reg r2).toNat) % 65536 ∧
      SameRegsBut r1 s t ∧ SameMemory s t ∧ t.sp = s.sp ∧ t.pc = s.pc ∧ t.zf = s.zf ∧ t.cfg = s.cfg

/-- R112. -/
def Obligations.SubWrapsIntoFirstRegister : Prop :=
  ∀ (r1 r2 : Reg) (s : State),
    encode (.sub r1 r2) = 0x10000000#32 ||| (BitVec.ofNat 32 r1.val <<< 19) ||| (BitVec.ofNat 32 r2.val <<< 16) ∧
    ∃ t, exec (.sub r1 r2) s = .next t ∧
      ((t.reg r1).toNat : Int) = ((s.reg r1).toNat - (s.reg r2).toNat : Int) % 65536 ∧
      SameRegsBut r1 s t ∧ SameMemory s t ∧ t.sp = s.sp ∧ t.pc = s.pc ∧ t.zf = s.zf ∧ t.cfg = s.cfg

/-- R113. -/
def Obligations.MulKeepsLowHalfOfProduct : Prop :=
  ∀ (r1 r2 : Reg) (s : State),
    encode (.mul r1 r2) = 0x20000000#32 ||| (BitVec.ofNat 32 r1.val <<< 19) ||| (BitVec.ofNat 32 r2.val <<< 16) ∧
    ∃ t, exec (.mul r1 r2) s = .next t ∧
      (t.reg r1).toNat = ((s.reg r1).toNat * (s.reg r2).toNat) % 65536 ∧
      SameRegsBut r1 s t ∧ SameMemory s t ∧ t.sp = s.sp ∧ t.pc = s.pc ∧ t.zf = s.zf ∧ t.cfg = s.cfg

/-- R114: the unsigned quotient rounded down, or DivisionByZero when the divisor register holds 0. -/
def Obligations.DivGivesQuotientOrFaults : Prop :=
  ∀ (r1 r2 : Reg) (s : State),
    encode (.div r1 r2) = 0x30000000#32 ||| (BitVec.ofNat 32 r1.val <<< 19) ||| (BitVec.ofNat 32 r2.val <<< 16) ∧
    ((s.reg r2).toNat = 0 →
      exec (.div r1 r2) s = .fault .divisionByZero ∧ stepPort (.div r1 r2) s = (some .divisionByZero, s)) ∧
    ((s.reg r2).toNat ≠ 0 → ∃ t, exec (.div r1 r2) s = .next t ∧
      (t.reg r1).toNat = (s.reg r1).toNat / (s.reg r2).toNat ∧
      SameRegsBut r1 s t ∧ SameMemory s t ∧ t.sp = s.sp ∧ t.pc = s.pc ∧ t.zf = s.zf ∧ t.cfg = s.cfg)

/-- R130. -/
def Obligations.MovCopiesRegister : Prop :=
  ∀ (r1 r2 : Reg) (s : State),
    encode (.mov r1 r2) = 0x40000000#32 ||| (BitVec.ofNat 32 r1.val <<< 19) ||| (BitVec.ofNat 32 r2.val <<< 16) ∧
    ∃ t, exec (.mov r1 r2) s = .next t ∧ t.reg r1 = s.reg r2 ∧
      SameRegsBut r1 s t ∧ SameMemory s t ∧ t.sp = s.sp ∧ t.pc = s.pc ∧ t.zf = s.zf ∧ t.cfg = s.cfg

/-- R131: the word at the register-indirect address, and no other, takes the register's value; at or above `CAP` the
instruction faults and nothing changes. -/
def Obligations.StoreWritesOneWordOrFaults : Prop :=
  ∀ (addrReg valReg : Reg) (s : State),
    encode (.store addrReg valReg) =
      0x50000000#32 ||| (BitVec.ofNat 32 addrReg.val <<< 19) ||| (BitVec.ofNat 32 valReg.val <<< 16) ∧
    (s.cap ≤ (indirect addrReg s).toNat →
      exec (.store addrReg valReg) s = .fault .memoryOutOfBounds ∧
      stepPort (.store addrReg valReg) s = (some .memoryOutOfBounds, s)) ∧
    ((indirect addrReg s).toNat < s.cap → ∃ t, exec (.store addrReg valReg) s = .next t ∧
      t.memRead (indirect addrReg s) = s.reg valReg ∧ SameMemoryBut (indirect addrReg s) s t ∧
      SameRegs s t ∧ t.sp = s.sp ∧ t.pc = s.pc ∧ t.zf = s.zf ∧ t.cfg = s.cfg)

/-- R132: the destination takes the word at the register-indirect address, read before the register is written. -/
def Obligations.LoadReadsOneWordOrFaults : Prop :=
  ∀ (dstReg addrReg : Reg) (s : State),
    encode (.load dstReg addrReg) =
      0x60000000#32 ||| (BitVec.ofNat 32 dstReg.val <<< 19) ||| (BitVec.ofNat 32 addrReg.val <<< 16) ∧
    (s.cap ≤ (indirect addrReg s).toNat →
      exec (.load dstReg addrReg) s = .fault .memoryOutOfBounds ∧
      stepPort (.load dstReg addrReg) s = (some .memoryOutOfBounds, s)) ∧
    ((indirect addrReg s).toNat < s.cap → ∃ t, exec (.load dstReg addrReg) s = .next t ∧
      t.reg dstReg = s.memRead (indirect addrReg s) ∧
      SameRegsBut dstReg s t ∧ SameMemory s t ∧ t.sp = s.sp ∧ t.pc = s.pc ∧ t.zf = s.zf ∧ t.cfg = s.cfg)

/-- R151: the word at `sp`, and no other, takes the register's value and `sp` grows by one, with no wrap where the
capacity is a legal one (R6); at or above `CAP` the instruction faults and nothing changes. -/
def Obligations.PushWritesAtStackPointerOrFaults : Prop :=
  ∀ (r : Reg) (s : State),
    encode (.push r) = 0x70000000#32 ||| (BitVec.ofNat 32 r.val <<< 19) ∧
    (s.cap ≤ s.sp.toNat →
      exec (.push r) s = .fault .stackOverflow ∧ stepPort (.push r) s = (some .stackOverflow, s)) ∧
    (s.sp.toNat < s.cap → ∃ t, exec (.push r) s = .next t ∧
      t.memRead s.sp = s.reg r ∧ SameMemoryBut s.sp s t ∧
      t.sp = s.sp + 1 ∧ (s.cfg.wf = true → t.sp.toNat = s.sp.toNat + 1) ∧
      SameRegs s t ∧ t.pc = s.pc ∧ t.zf = s.zf ∧ t.cfg = s.cfg)

/-- R152: StackUnderflow at `sp = 0`, MemoryOutOfBounds when `sp − 1 ≥ CAP`, else `sp` falls by one and the register
takes the word at the new `sp`, which stays in memory. -/
def Obligations.PopReadsBelowStackPointerOrFaults : Prop :=
  ∀ (r : Reg) (s : State),
    encode (.pop r) = 0x80000000#32 ||| (BitVec.ofNat 32 r.val <<< 19) ∧
    (s.sp.toNat = 0 →
      exec (.pop r) s = .fault .stackUnderflow ∧ stepPort (.pop r) s = (some .stackUnderflow, s)) ∧
    (s.sp.toNat ≠ 0 → s.cap ≤ s.sp.toNat - 1 →
      exec (.pop r) s = .fault .memoryOutOfBounds ∧ stepPort (.pop r) s = (some .memoryOutOfBounds, s)) ∧
    (s.sp.toNat ≠ 0 → s.sp.toNat - 1 < s.cap → ∃ t, exec (.pop r) s = .next t ∧
      t.sp.toNat = s.sp.toNat - 1 ∧ t.reg r = s.memRead t.sp ∧
      SameRegsBut r s t ∧ SameMemory s t ∧ t.pc = s.pc ∧ t.zf = s.zf ∧ t.cfg = s.cfg)

/-- R171, at the step port and through the sequencer. -/
def Obligations.JmpSetsPc : Prop :=
  ∀ (addr : Word) (s : State),
    encode (.jmp addr) = 0x90000000#32 ||| addr.setWidth 32 ∧
    (∃ t, exec (.jmp addr) s = .next t ∧ t.pc = addr ∧
      SameRegs s t ∧ SameMemory s t ∧ t.sp = s.sp ∧ t.zf = s.zf ∧ t.cfg = s.cfg) ∧
    (s.cfg.prog[s.pc.toNat]? = some (encode (.jmp addr)) → ∃ t, step s = .next t ∧ t.pc = addr ∧
      (s.cfg.prog.length ≤ addr.toNat → (cycle t).1 = some .ended))

/-- R172. From reset the jump is not taken. -/
def Obligations.JmpZJumpsWhenFlagSet : Prop :=
  ∀ (addr : Word) (s : State) (c : Config),
    encode (.jmpZ addr) = 0xA0000000#32 ||| addr.setWidth 32 ∧
    (∃ t, exec (.jmpZ addr) s = .next t ∧ t.pc = (if s.zf = true then addr else s.pc) ∧
      SameRegs s t ∧ SameMemory s t ∧ t.sp = s.sp ∧ t.zf = s.zf ∧ t.cfg = s.cfg) ∧
    exec (.jmpZ addr) (State.initial c) = .next (State.initial c)

/-- R173. From reset the jump is taken. -/
def Obligations.JmpNZJumpsWhenFlagClear : Prop :=
  ∀ (addr : Word) (s : State) (c : Config),
    encode (.jmpNZ addr) = 0xB0000000#32 ||| addr.setWidth 32 ∧
    (∃ t, exec (.jmpNZ addr) s = .next t ∧ t.pc = (if s.zf = false then addr else s.pc) ∧
      SameRegs s t ∧ SameMemory s t ∧ t.sp = s.sp ∧ t.zf = s.zf ∧ t.cfg = s.cfg) ∧
    exec (.jmpNZ addr) (State.initial c) = .next ((State.initial c).setPc addr)

/-- R174, at the step port and through the sequencer, where the target counts from the next instruction. -/
def Obligations.JmpRelAddsToPc : Prop :=
  ∀ (off : Word) (s : State),
    encode (.jmpRel off) = 0xC0000000#32 ||| off.setWidth 32 ∧
    (∃ t, exec (.jmpRel off) s = .next t ∧ t.pc.toNat = (s.pc.toNat + off.toNat) % 65536 ∧
      SameRegs s t ∧ SameMemory s t ∧ t.sp = s.sp ∧ t.zf = s.zf ∧ t.cfg = s.cfg) ∧
    (s.cfg.prog[s.pc.toNat]? = some (encode (.jmpRel off)) → ∃ t, step s = .next t ∧
      t.pc.toNat = (s.pc.toNat + 1 + off.toNat) % 65536)

/-- R175. From reset the jump is not taken. -/
def Obligations.JmpZRelAddsToPcWhenFlagSet : Prop :=
  ∀ (off : Word) (s : State) (c : Config),
    encode (.jmpZRel off) = 0xD0000000#32 ||| off.setWidth 32 ∧
    (∃ t, exec (.jmpZRel off) s = .next t ∧
      t.pc.toNat = (if s.zf = true then (s.pc.toNat + off.toNat) % 65536 else s.pc.toNat) ∧
      SameRegs s t ∧ SameMemory s t ∧ t.sp = s.sp ∧ t.zf = s.zf ∧ t.cfg = s.cfg) ∧
    exec (.jmpZRel off) (State.initial c) = .next (State.initial c)

/-- R176. From reset, where `pc` is 0, the jump is taken. -/
def Obligations.JmpNZRelAddsToPcWhenFlagClear : Prop :=
  ∀ (off : Word) (s : State) (c : Config),
    encode (.jmpNZRel off) = 0xE0000000#32 ||| off.setWidth 32 ∧
    (∃ t, exec (.jmpNZRel off) s = .next t ∧
      t.pc.toNat = (if s.zf = false then (s.pc.toNat + off.toNat) % 65536 else s.pc.toNat) ∧
      SameRegs s t ∧ SameMemory s t ∧ t.sp = s.sp ∧ t.zf = s.zf ∧ t.cfg = s.cfg) ∧
    exec (.jmpNZRel off) (State.initial c) = .next ((State.initial c).setPc off)

/-! ### Faults and results of the step port -/

/-- R200 with R61, R203 and R204: an instruction raises exactly the faults of the table, under exactly the table's
conditions, and completes in every other state. -/
def Obligations.FaultsExactlyByTheTable : Prop :=
  (∀ (i : Instr) (s : State) (f : Fault), exec i s = .fault f ↔ FaultCause i s f) ∧
  ∀ (i : Instr) (s : State), (∀ f, ¬ FaultCause i s f) → ∃ t, exec i s = .next t

/-- R39: a step either commits and answers `Ok`, or answers the fault and leaves exactly the state it began in. -/
def Obligations.StepPortIsAllOrNothing : Prop :=
  ∀ (i : Instr) (s : State),
    (∃ t, exec i s = .next t ∧ stepPort i s = (some .ok, t)) ∨
    (∃ f, exec i s = .fault f ∧ stepPort i s = (some (Result.ofFault f), s))

/-- R206: the codes, and which of them each port can answer. -/
def Obligations.ResultCodesOfBothPorts : Prop :=
  Result.ok.code = 0 ∧ Result.divisionByZero.code = 1 ∧ Result.memoryOutOfBounds.code = 2 ∧
  Result.stackOverflow.code = 3 ∧ Result.stackUnderflow.code = 4 ∧ Result.illegalInstruction.code = 5 ∧
  Result.ended.code = 6 ∧
  (∀ (i : Instr) (s : State), ∃ r, (stepPort i s).1 = some r ∧ r.code ≤ 4) ∧
  ∀ s : State, ∃ r, (cycle s).1 = some r ∧ r.code ≤ 6

/-- R205: the two outcomes of the sequencer, when they arise, that neither changes any state, that only the first is a
fault, and that the step port raises neither. -/
def Obligations.StepPortRaisesNoSequencerOutcome : Prop :=
  (∀ (i : Instr) (s : State), exec i s ≠ .fault .illegalInstruction ∧ exec i s ≠ .fault .endOfRun) ∧
  (∀ s : State, (cycle s).1 = some .illegalInstruction ↔
    ∃ w e, s.cfg.prog[s.pc.toNat]? = some w ∧ decode w = .error e) ∧
  (∀ s : State, (cycle s).1 = some .ended ↔ s.cfg.prog.length ≤ s.pc.toNat) ∧
  (∀ s : State, (cycle s).1 = some .illegalInstruction ∨ (cycle s).1 = some .ended → (cycle s).2 = s) ∧
  Result.illegalInstruction.isFault = true ∧ Result.ended.isFault = false

/-! ### Rules about the whole instruction set -/

/-- R31: no instruction writes the zero flag, only the four conditional jumps depend on it, and each of those jumps
just when the flag is as it asks. -/
def Obligations.ZeroFlagIsReadAndNeverWritten : Prop :=
  (∀ (i : Instr) (s t : State), exec i s = .next t → t.zf = s.zf) ∧
  (∀ (i : Instr) (s : State) (b : Bool), readsZeroFlag i = false →
    exec i (s.setZf b) = onNext (fun t => t.setZf b) (exec i s)) ∧
  (∀ (addr : Word) (s t : State), exec (.jmpZ addr) s = .next t → t.pc = if s.zf = true then addr else s.pc) ∧
  (∀ (off : Word) (s t : State), exec (.jmpZRel off) s = .next t → t.pc = if s.zf = true then s.pc + off else s.pc) ∧
  (∀ (addr : Word) (s t : State), exec (.jmpNZ addr) s = .next t → t.pc = if s.zf = false then addr else s.pc) ∧
  (∀ (off : Word) (s t : State), exec (.jmpNZRel off) s = .next t → t.pc = if s.zf = false then s.pc + off else s.pc)

/-- R28: inside the step port `pc` changes only in a taken jump, to that jump's target. -/
def Obligations.PcWrittenOnlyByTakenJumps : Prop :=
  ∀ (i : Instr) (s t : State), exec i s = .next t →
    t.pc = (takenJump i s).getD s.pc ∧ (isJump i = false → takenJump i s = none)

/-- One half of R22's table, that no register outside an instruction's row is written or read: an instruction changes no
register but those its row says it writes, and a register its row does not say it reads has no influence on what it
does. The other half is `RegistersOfTheRowAreWrittenAndRead`. -/
def Obligations.RegistersReadAndWrittenByTable : Prop :=
  (∀ (i : Instr) (s t : State) (q : Reg), exec i s = .next t → q ∉ writesRegs i → t.reg q = s.reg q) ∧
  ∀ (i : Instr) (s : State) (r : Reg) (v : Word), r ∉ readsRegs i →
    exec i (s.setReg r v) = onNext (fun t => if r ∈ writesRegs i then t else t.setReg r v) (exec i s)

/-- The other half of R22's table: each register that an instruction's row says it writes changes in some run of the
instruction, and each that its row says it reads has an influence on what it does. The forms where that cannot be seen
are Mov of a register to itself, which writes back what it read, and Sub of a register from itself, which leaves 0
whatever it read (R99). -/
def Obligations.RegistersOfTheRowAreWrittenAndRead : Prop :=
  (∀ (i : Instr) (r : Reg), r ∈ writesRegs i →
    (∃ q, i = .mov q q ∧ ∀ s, exec i s = .next s) ∨
    ∃ s t, Inv s ∧ exec i s = .next t ∧ t.reg r ≠ s.reg r) ∧
  ∀ (i : Instr) (r : Reg), r ∈ readsRegs i →
    (∃ q, i = .sub q q ∧ ∀ s, exec i s = .next (s.setReg q 0)) ∨
    ∃ s v, Inv s ∧
      exec i (s.setReg r v) ≠ onNext (fun t => if r ∈ writesRegs i then t else t.setReg r v) (exec i s)

/-- R24: no instruction but Push and Pop writes `sp` or depends on it. -/
def Obligations.StackPointerUsedOnlyByPushAndPop : Prop :=
  ∀ (i : Instr) (s : State), usesStack i = false →
    (∀ t, exec i s = .next t → t.sp = s.sp) ∧
    ∀ v, exec i (s.setSp v) = onNext (fun t => t.setSp v) (exec i s)

/-- R62: Store and Push write one word and no other instruction writes any; Load and Pop depend on one word and no other
instruction depends on any; fetch does not touch data memory. -/
def Obligations.MemoryReachedOnlyByFourInstructions : Prop :=
  (∀ (i : Instr) (s t : State), writesMemory i = false → exec i s = .next t → SameMemory s t) ∧
  (∀ (a v : Reg) (s t : State), exec (.store a v) s = .next t → SameMemoryBut (indirect a s) s t) ∧
  (∀ (r : Reg) (s t : State), exec (.push r) s = .next t → SameMemoryBut s.sp s t) ∧
  (∀ (i : Instr) (s : State) (m : Memory), readsMemory i = false → writesMemory i = false →
    exec i (withMem m s) = onNext (withMem m) (exec i s)) ∧
  (∀ (d a : Reg) (s : State) (m : Memory), (withMem m s).memRead (indirect a s) = s.memRead (indirect a s) →
    exec (.load d a) (withMem m s) = onNext (withMem m) (exec (.load d a) s)) ∧
  (∀ (r : Reg) (s : State) (m : Memory), (withMem m s).memRead (sub16 s.sp 1) = s.memRead (sub16 s.sp 1) →
    exec (.pop r) (withMem m s) = onNext (withMem m) (exec (.pop r) s)) ∧
  ∀ (s : State) (m : Memory), fetchWord (withMem m s) = fetchWord s

/-- R26: construction establishes `sp ≤ CAP`, every instruction keeps it, a host write can break it, and where it is
broken Push raises StackOverflow and Pop MemoryOutOfBounds. -/
def Obligations.StackInvariantKept : Prop :=
  (∀ c : Config, StackWithinCapacity (State.initial c)) ∧
  (∀ (i : Instr) (s t : State), StackWithinCapacity s → exec i s = .next t → StackWithinCapacity t) ∧
  (∀ s : State, s.cap < 65535 → ∃ v t, hostWrite .sp (.word v) s = some t ∧ ¬ StackWithinCapacity t) ∧
  ∀ (s : State) (r : Reg), ¬ StackWithinCapacity s →
    exec (.push r) s = .fault .stackOverflow ∧ exec (.pop r) s = .fault .memoryOutOfBounds

/-- R153, in a machine of legal capacity. -/
def Obligations.PushThenPopLaw : Prop :=
  ∀ (r r2 : Reg) (s : State), s.cfg.wf = true →
    (s.sp.toNat < s.cap → ∃ t u, exec (.push r) s = .next t ∧ exec (.pop r2) t = .next u ∧
      u.reg r2 = s.reg r ∧ u.sp = s.sp ∧ u.memRead s.sp = s.reg r) ∧
    (s.cap ≤ s.sp.toNat → exec (.push r) s = .fault .stackOverflow)

/-- R71 for Store and Load: a load right after a store gives the stored value at its address, and what was there before
at any other. -/
def Obligations.LoadSeesLatestStore : Prop :=
  ∀ (a v d b : Reg) (s : State), (indirect a s).toNat < s.cap → (indirect b s).toNat < s.cap →
    ∃ t u, exec (.store a v) s = .next t ∧ exec (.load d b) t = .next u ∧
      u.reg d = if indirect b s = indirect a s then s.reg v else s.memRead (indirect b s)

/-- R69: a push overwrites what a store left at `sp`, and a store to the word below `sp` is what the next pop gives. -/
def Obligations.StackAndDataShareMemory : Prop :=
  (∀ (a v r : Reg) (s : State), s.sp.toNat < s.cap → indirect a s = s.sp →
    ∃ t u, exec (.store a v) s = .next t ∧ t.memRead s.sp = s.reg v ∧
      exec (.push r) t = .next u ∧ u.memRead s.sp = s.reg r) ∧
  ∀ (a v r : Reg) (s : State), s.sp.toNat ≠ 0 → s.sp.toNat ≤ s.cap → indirect a s = s.sp - 1 →
    ∃ t u, exec (.store a v) s = .next t ∧ exec (.pop r) t = .next u ∧ u.reg r = s.reg v

/-- R99's identities: Mov of a register to itself changes nothing, Sub of a register from itself leaves 0 in it and
nothing else changed, and JmpRel(0) falls through to the next instruction. -/
def Obligations.IdentityInstructions : Prop :=
  (∀ (r : Reg) (s : State), exec (.mov r r) s = .next s) ∧
  (∀ (r : Reg) (s : State), exec (.sub r r) s = .next (s.setReg r 0)) ∧
  ∀ s : State, s.cfg.prog[s.pc.toNat]? = some (encode (.jmpRel 0)) → step s = .next (s.setPc (s.pc + 1))

/-- R90 and R11: a taken relative jump, which adds its offset modulo 2^16, moves `pc` by the offset's signed reading; and
the signed reading and the sign extension of R11 are the two's-complement ones. -/
def Obligations.RelativeOffsetIsSigned : Prop :=
  (∀ (off : Word) (s t : State),
    exec (.jmpRel off) s = .next t ∨ (s.zf = true ∧ exec (.jmpZRel off) s = .next t) ∨
      (s.zf = false ∧ exec (.jmpNZRel off) s = .next t) →
    (t.pc.toNat : Int) = ((s.pc.toNat : Int) + s16 off) % 65536) ∧
  (∀ v : Word, s16 v = v.toInt) ∧
  ∀ (n : Nat) (v : Word), 16 ≤ n → BitVec.ofNat n (sext n v) = v.signExtend n

/-! ### The sequencer -/

/-- R42: when the word at `pc` decodes to `i`, a step is `i` in the state with `pc` advanced by one modulo 2^16. -/
def Obligations.StepRunsDecodedInstruction : Prop :=
  ∀ (s : State) (w : InstrWord) (i : Instr), s.cfg.prog[s.pc.toNat]? = some w → decode w = .ok i →
    step s = exec i (s.setPc (s.pc + 1))

/-- R42, the whole transaction: each of its results with the state afterwards, and where its jumps land. -/
def Obligations.CycleTransaction : Prop :=
  ∀ s : State,
    (s.cfg.prog.length ≤ s.pc.toNat → cycle s = (some .ended, s)) ∧
    ∀ w, s.cfg.prog[s.pc.toNat]? = some w →
      (∀ e, decode w = .error e → cycle s = (some .illegalInstruction, s)) ∧
      ∀ i, decode w = .ok i →
        (∀ f, exec i (s.setPc (s.pc + 1)) = .fault f → cycle s = (some (Result.ofFault f), s)) ∧
        (∀ t, exec i (s.setPc (s.pc + 1)) = .next t → cycle s = (some .ok, t)) ∧
        (∀ off, i = .jmpRel off → (cycle s).2.pc = s.pc + 1 + off) ∧
        (∀ addr, i = .jmp addr → (cycle s).2.pc = addr)

/-- R43: a cycle answers `End` exactly when `pc` is outside the program, changes nothing then, and goes on answering
`End`. -/
def Obligations.CycleEndsOutsideProgram : Prop :=
  ∀ s : State,
    ((cycle s).1 = some .ended ↔ s.cfg.prog.length ≤ s.pc.toNat) ∧
    (s.cfg.prog.length ≤ s.pc.toNat → ∀ n : Nat,
      (fun u => (cycle u).2)^[n] s = s ∧ (cycle ((fun u => (cycle u).2)^[n] s)).1 = some .ended)

/-- R44: a faulting cycle leaves the whole state as it was, `pc` too; the same cycle faults again in the same way; and
the host skips the instruction by writing `pc + 1`. -/
def Obligations.FaultingCycleIsPrecise : Prop :=
  ∀ (s t : State) (r : Result), cycle s = (some r, t) → r.isFault = true →
    t = s ∧ cycle t = (some r, t) ∧ hostWrite .pc (.word (s.pc + 1)) t = some (s.setPc (s.pc + 1))

/-- R28, R30 and R42: a cycle that completes leaves `pc` at the taken jump's target, and otherwise at the next index,
modulo 2^16. -/
def Obligations.CycleAdvancesPcOrJumps : Prop :=
  ∀ (s t : State) (w : InstrWord) (i : Instr), s.cfg.prog[s.pc.toNat]? = some w → decode w = .ok i →
    step s = .next t →
    t.pc = (takenJump i (s.setPc (s.pc + 1))).getD (s.pc + 1) ∧
    (isJump i = false → t.pc.toNat = (s.pc.toNat + 1) % 65536)

/-- R73: no instruction and no run changes the program store, and no store is seen by a later fetch. -/
def Obligations.ProgramStoreNeverWritten : Prop :=
  (∀ (i : Instr) (s t : State), exec i s = .next t → t.cfg = s.cfg) ∧
  (∀ (n : Nat) (s t : State), run n s = .next t → t.cfg = s.cfg) ∧
  ∀ (i : Instr) (s t : State), writesMemory i = true → exec i s = .next t → fetchWord t = fetchWord s

/-! ### Runs -/

/-- R32: the flag is clear at reset and stays so in every run without host writes, where JmpZ and JmpZRel are never taken
and JmpNZ and JmpNZRel always are; and of the host's interactions only a write of the flag or a reset changes it. -/
def Obligations.ZeroFlagStaysClearWithoutHostWrites : Prop :=
  (∀ c : Config, (State.initial c).zf = false) ∧
  (∀ (c : Config) (n : Nat) (t : State), run n (State.initial c) = .next t → t.zf = false ∧
    ∀ x : Word, exec (.jmpZ x) t = .next t ∧ exec (.jmpZRel x) t = .next t ∧
      exec (.jmpNZ x) t = .next (t.setPc x) ∧ exec (.jmpNZRel x) t = .next (t.setPc (t.pc + x))) ∧
  ∀ (s : State) (x : Interaction), (interact s x).2.zf ≠ s.zf → x = .reset ∨ ∃ b, x = .write .zf (.flag b)

/-- R235: where every register and memory word is 0, every cycle keeps it so; so a run from the reset state without host
writes holds only 0, whatever the program. -/
def Obligations.OnlyZerosWithoutHostWrites : Prop :=
  (∀ s t : State, AllZero s → step s = .next t → AllZero t) ∧
  ∀ (c : Config) (n : Nat) (t : State), run n (State.initial c) = .next t → AllZero t

/-- R239's three examples: `JmpRel(-1)` at any index, `Jmp(p)` at index p, and `JmpNZ(p)` at index p with the flag clear
run forever. -/
def Obligations.TakenJumpsToThemselvesRunForever : Prop :=
  ∀ s : State,
    (s.cfg.prog[s.pc.toNat]? = some (encode (.jmpRel 0xFFFF)) ∨
     s.cfg.prog[s.pc.toNat]? = some (encode (.jmp s.pc)) ∨
     (s.cfg.prog[s.pc.toNat]? = some (encode (.jmpNZ s.pc)) ∧ s.zf = false)) →
    ∀ n : Nat, run n s = .next s

/-- R236: a run that stops does so at one cycle, in the state before that cycle, and stays stopped however many more
cycles are asked for. -/
def Obligations.RunStopsAtOneCycle : Prop :=
  (∀ (n : Nat) (s : State) (f : Fault), run n s = .fault f →
    ∃ m t, m < n ∧ run m s = .next t ∧ cycle t = (some (Result.ofFault f), t)) ∧
  ∀ (n k : Nat) (s : State) (f : Fault), run n s = .fault f → run (n + k) s = .fault f

/-! ### The host's ports -/

/-- R45: the host reads every element of the state vector, and a read changes nothing; every register, `sp`, `pc`, `zf`
and memory word below `CAP` takes a value of its kind; and what was written is there for the next transaction, with
nothing else changed. -/
def Obligations.HostReadsBackWhatItWrites : Prop :=
  (∀ (s : State) (r : Reg), hostRead (.reg r) s = some (.word (s.reg r))) ∧
  (∀ s : State, hostRead .sp s = some (.word s.sp) ∧ hostRead .pc s = some (.word s.pc) ∧
    hostRead .zf s = some (.flag s.zf)) ∧
  (∀ (s : State) (a : Word), a.toNat < s.cap → hostRead (.mem a) s = some (.word (s.memRead a))) ∧
  (∀ (s : State) (e : Element), (interact s (.read e)).2 = s) ∧
  (∀ (s : State) (r : Reg) (v : Word), (hostWrite (.reg r) (.word v) s).isSome = true ∧
    (hostWrite .sp (.word v) s).isSome = true ∧ (hostWrite .pc (.word v) s).isSome = true) ∧
  (∀ (s : State) (b : Bool), (hostWrite .zf (.flag b) s).isSome = true) ∧
  (∀ (s : State) (a v : Word), a.toNat < s.cap → (hostWrite (.mem a) (.word v) s).isSome = true) ∧
  ∀ (e : Element) (v : HostValue) (s t : State), hostWrite e v s = some t →
    hostRead e t = some v ∧ (∀ e', e' ≠ e → hostRead e' t = hostRead e' s) ∧ t.cfg = s.cfg ∧
    (interact s (.write e v)).2 = t

/-- The model's own choice for the requests that R45, R46 and R47 leave out (log 10): a memory word at or above `CAP` is
neither read nor written, a value of the wrong kind is not taken, a program of more than 65536 words is not loaded, a
snapshot whose entry for `zf` is neither 0 nor 1 is not restored, and what is declined changes nothing. -/
def Obligations.HostPortDeclinesOtherRequests : Prop :=
  (∀ (s : State) (a v : Word), s.cap ≤ a.toNat →
    hostRead (.mem a) s = none ∧ hostWrite (.mem a) (.word v) s = none) ∧
  (∀ (s : State) (v : Word), hostWrite .zf (.word v) s = none) ∧
  (∀ (s : State) (e : Element) (b : Bool), e ≠ .zf → hostWrite e (.flag b) s = none) ∧
  (∀ (s : State) (e : Element), hostRead e s = none → interact s (.read e) = (.declined, s)) ∧
  (∀ (s : State) (e : Element) (v : HostValue), hostWrite e v s = none →
    interact s (.write e v) = (.declined, s)) ∧
  (∀ (s : State) (prog : List InstrWord), 65536 < prog.length →
    interact s (.loadProgram prog) = (.declined, s)) ∧
  ∀ (s : State) (entries : List Word) (z : Word), entries[10]? = some z → z ≠ 0 → z ≠ 1 →
    restore entries s = none

/-- The row of R47 for loading a program, with R234: the program store holds the new program, every element of the state
vector and the capacity are as they were, and the next fetch reads the new program at `pc`. Log 15 names what the model
reads into it. -/
def Obligations.LoadingReplacesTheProgramOnly : Prop :=
  ∀ (s : State) (prog : List InstrWord), prog.length ≤ 65536 →
    ∃ t, interact s (.loadProgram prog) = (.nothing, t) ∧ t.cfg.prog = prog ∧ t.cap = s.cap ∧
      (∀ e, hostRead e t = hostRead e s) ∧ SameRegs s t ∧ SameMemory s t ∧ t.sp = s.sp ∧ t.pc = s.pc ∧ t.zf = s.zf ∧
      fetchWord t = prog[s.pc.toNat]?

/-- R46's layout of a snapshot, entry by entry. -/
def Obligations.SnapshotLayout : Prop :=
  ∀ s : State,
    (snapshot s).length = 11 + s.cap ∧ (∀ r : Reg, (snapshot s)[r.val]? = some (s.reg r)) ∧
    (snapshot s)[8]? = some s.sp ∧ (snapshot s)[9]? = some s.pc ∧
    (snapshot s)[10]? = some (if s.zf = true then 1 else 0) ∧
    ∀ a, a < s.cap → (snapshot s)[11 + a]? = some (s.memRead (BitVec.ofNat 16 a))

/-- R46 and D13: restoring a legal state's snapshot, as words or as bytes in whichever order, into a legal machine of the
same capacity gives that state with the machine's own program kept, which is that very state when the programs are the
same; and only a snapshot of the machine's own capacity is taken. -/
def Obligations.SnapshotRestoresState : Prop :=
  (∀ s u : State, Legal s → Legal u → u.cap = s.cap →
    restore (snapshot s) u = some { s with cfg := u.cfg } ∧
    restoreBytes (snapshotBytes s) u = some { s with cfg := u.cfg }) ∧
  (∀ (o : ByteOrder) (ws : List Word), deserialise o (serialise o ws) = some ws) ∧
  ∀ (ws : List Word) (u t : State), restore ws u = some t → ws.length = 11 + u.cap

/-! ### Invariants of the model -/

/-- The model's invariant holds of every constructed machine, and of `State.reset`. -/
def Obligations.ConstructionMeetsInvariant : Prop :=
  (∀ (capacity : Nat) (prog : List InstrWord) (s : State), construct capacity prog = some s → Inv s) ∧
  Inv State.reset

/-- Every cycle keeps the invariant: memory canonical and inside the capacity, parameters legal, `sp ≤ CAP` (R26, R33,
R6). -/
def Obligations.StepKeepsInvariant : Prop :=
  ∀ s t : State, Inv s → step s = .next t → Inv t

/-- Every interaction of R47 keeps a state legal, and keeps `sp ≤ CAP` but for a host write of `sp` (R26). -/
def Obligations.EveryInteractionKeepsLegality : Prop :=
  ∀ (s : State) (x : Interaction), Legal s →
    Legal (interact s x).2 ∧
    (StackWithinCapacity s → (∀ v, x ≠ .write .sp v) → StackWithinCapacity (interact s x).2)

/-! ### The encoding -/

/-- R95: decoding an encoded instruction gives it back, encoding a decoded word gives the word back, and an encoded word
is the opcode and the operands in their fields with nothing in any other. -/
def Obligations.EncodeInvertsDecode : Prop :=
  (∀ i : Instr, decode (encode i) = .ok i) ∧
  (∀ (w : InstrWord) (i : Instr), decode w = .ok i → encode i = w) ∧
  ∀ i : Instr, (encode i).toNat = i.toRaw.variant * 2 ^ 28 +
    match i.toRaw.operands with
    | [a, b] => a * 2 ^ 19 + b * 2 ^ 16
    | [a] => if i.toRaw.variant ≤ 8 then a * 2 ^ 19 else a
    | _ => 0

/-- R89 with R88 and R90: a legal word's opcode is the row number of its instruction in R81, and its operands are the
word's bits 21:19, 18:16 and 15:0, as they stand, in the order the spec writes them. -/
def Obligations.FieldsCarryOperands : Prop :=
  ∀ (w : InstrWord) (i : Instr), decode w = .ok i →
    i.toRaw.variant = w.toNat / 2 ^ 28 ∧
    i.toRaw.operands =
      (if w.toNat / 2 ^ 28 ≤ 6 then [w.toNat / 2 ^ 19 % 8, w.toNat / 2 ^ 16 % 8]
       else if w.toNat / 2 ^ 28 ≤ 8 then [w.toNat / 2 ^ 19 % 8]
       else [w.toNat % 65536])

/-- R93: exactly which words are illegal, and that a cycle which fetches one faults and changes nothing. -/
def Obligations.IllegalWordsExactly : Prop :=
  (∀ w : InstrWord, (∃ e, decode w = .error e) ↔
    (w.toNat / 2 ^ 28 = 15 ∨ w.toNat / 2 ^ 22 % 64 ≠ 0 ∨
     (w.toNat / 2 ^ 28 ≤ 6 ∧ w.toNat % 65536 ≠ 0) ∨
     ((w.toNat / 2 ^ 28 = 7 ∨ w.toNat / 2 ^ 28 = 8) ∧ (w.toNat / 2 ^ 16 % 8 ≠ 0 ∨ w.toNat % 65536 ≠ 0)) ∨
     (9 ≤ w.toNat / 2 ^ 28 ∧ w.toNat / 2 ^ 28 ≤ 14 ∧ (w.toNat / 2 ^ 19 % 8 ≠ 0 ∨ w.toNat / 2 ^ 16 % 8 ≠ 0)))) ∧
  ∀ (s : State) (w : InstrWord) (e : IllegalWord), s.cfg.prog[s.pc.toNat]? = some w → decode w = .error e →
    cycle s = (some .illegalInstruction, s)

/-- R92: a word is legal if and only if exactly one row of the opcode table admits it, and no word is admitted by two
rows. -/
def Obligations.LegalWordsMatchOneRow : Prop :=
  (∀ w : InstrWord, (∃ i, decode w = .ok i) ↔ (opcodeTable.filter fun row => row.admits w).length = 1) ∧
  ∀ w : InstrWord, (opcodeTable.filter fun row => row.admits w).length ≤ 1

/-- Words written out by hand from R84 to R89, one for each format and both operand orders, decode to what they stand
for. -/
def Obligations.WrittenOutWordsDecode : Prop :=
  decode 0x000A0000#32 = .ok (.add 1 2) ∧ decode 0x500A0000#32 = .ok (.store 1 2) ∧
  decode 0x60190000#32 = .ok (.load 3 1) ∧ decode 0x80100000#32 = .ok (.pop 2) ∧
  decode 0x9000000C#32 = .ok (.jmp 12) ∧ decode 0xE000FFFF#32 = .ok (.jmpNZRel 0xFFFF)

/-! ### The textual syntax -/

/-- R96: an instruction written out in the syntax reads back as itself. -/
def Obligations.WrittenInstructionReadsBack : Prop :=
  ∀ i : Instr, parseInstr (printInstr i) = some i

/-- R97: a register is written `rN` or `N` with N in 0..7, and no other spelling is taken. That N is one digit, so that
`07` is another spelling, is the model's choice (log 11). -/
def Obligations.RegisterSpellings : Prop :=
  ∀ (cs : List Char) (r : Reg),
    parseReg cs = some r ↔ cs = [Nat.digitChar r.val] ∨ cs = ['r', Nat.digitChar r.val]

/-- R98: decimal and hex immediates in −32768..65535 stand for their value modulo 2^16, and any other value is
refused. -/
def Obligations.ImmediateSpellings : Prop :=
  ∀ n : Nat,
    (n ≤ 65535 → parseImmediate (Nat.toDigits 10 n) = some (BitVec.ofNat 16 n) ∧
      parseImmediate ('0' :: 'x' :: Nat.toDigits 16 n) = some (BitVec.ofNat 16 n)) ∧
    (65535 < n → parseImmediate (Nat.toDigits 10 n) = none ∧
      parseImmediate ('0' :: 'x' :: Nat.toDigits 16 n) = none) ∧
    (n ≤ 32768 → parseImmediate ('-' :: Nat.toDigits 10 n) = some (BitVec.ofNat 16 (65536 - n))) ∧
    (32768 < n → parseImmediate ('-' :: Nat.toDigits 10 n) = none)
end

