-- ==== Sys2Proof/Laws/Decode.lean ====
section
/-! SUPPORT. The fields of a packed word, and a word's legality by construction of the instruction. -/

namespace Sys2Proof

/-! ### The numbers of a word's fields -/

theorem opField_toNat (w : InstrWord) : (opField w).toNat = w.toNat / 2 ^ 28 := by
  have := w.isLt
  simp [opField, BitVec.extractLsb'_toNat, Nat.shiftRight_eq_div_pow]; omega

theorem zField_toNat (w : InstrWord) : (zField w).toNat = w.toNat / 2 ^ 22 % 2 ^ 6 := by
  simp [zField, BitVec.extractLsb'_toNat, Nat.shiftRight_eq_div_pow]

theorem raField_toNat (w : InstrWord) : (raField w).toNat = w.toNat / 2 ^ 19 % 2 ^ 3 := by
  simp [raField, BitVec.extractLsb'_toNat, Nat.shiftRight_eq_div_pow]

theorem rbField_toNat (w : InstrWord) : (rbField w).toNat = w.toNat / 2 ^ 16 % 2 ^ 3 := by
  simp [rbField, BitVec.extractLsb'_toNat, Nat.shiftRight_eq_div_pow]

theorem immField_toNat (w : InstrWord) : (immField w).toNat = w.toNat % 2 ^ 16 := by
  simp [immField, BitVec.extractLsb'_toNat]

/-- Concatenation as arithmetic (R7: `{a, b}` has `a` in the high bits). -/
theorem append_toNat {n m : Nat} (x : BitVec n) (y : BitVec m) : (x ++ y).toNat = x.toNat * 2 ^ m + y.toNat := by
  rw [BitVec.toNat_append, ← Nat.shiftLeft_add_eq_or_of_lt y.isLt, Nat.shiftLeft_eq]

/-- A packed word as a number: the sum of R84. -/
theorem pack_toNat (op : BitVec 4) (ra rb : BitVec 3) (imm : Word) :
    (pack op ra rb imm).toNat = op.toNat * 2 ^ 28 + ra.toNat * 2 ^ 19 + rb.toNat * 2 ^ 16 + imm.toNat := by
  simp only [pack, append_toNat, BitVec.toNat_ofNat]
  omega

/-! ### The fields of a packed word -/

theorem opField_pack (op : BitVec 4) (ra rb : BitVec 3) (imm : Word) : opField (pack op ra rb imm) = op := by
  have := op.isLt; have := ra.isLt; have := rb.isLt; have := imm.isLt
  refine BitVec.eq_of_toNat_eq ?_
  rw [opField_toNat, pack_toNat]; omega

theorem zField_pack (op : BitVec 4) (ra rb : BitVec 3) (imm : Word) : zField (pack op ra rb imm) = 0 := by
  have := ra.isLt; have := rb.isLt; have := imm.isLt
  refine BitVec.eq_of_toNat_eq ?_
  rw [zField_toNat, pack_toNat]
  change _ = 0
  omega

theorem raField_pack (op : BitVec 4) (ra rb : BitVec 3) (imm : Word) : raField (pack op ra rb imm) = ra := by
  have := ra.isLt; have := rb.isLt; have := imm.isLt
  refine BitVec.eq_of_toNat_eq ?_
  rw [raField_toNat, pack_toNat]; omega

theorem rbField_pack (op : BitVec 4) (ra rb : BitVec 3) (imm : Word) : rbField (pack op ra rb imm) = rb := by
  have := rb.isLt; have := imm.isLt
  refine BitVec.eq_of_toNat_eq ?_
  rw [rbField_toNat, pack_toNat]; omega

theorem immField_pack (op : BitVec 4) (ra rb : BitVec 3) (imm : Word) : immField (pack op ra rb imm) = imm := by
  have := imm.isLt
  refine BitVec.eq_of_toNat_eq ?_
  rw [immField_toNat, pack_toNat]; omega

/-- A word whose `z` is zero is the packed word of its own fields. -/
theorem pack_fields {w : InstrWord} (h : zField w = 0) :
    pack (opField w) (raField w) (rbField w) (immField w) = w := by
  have hz := congrArg BitVec.toNat h
  rw [zField_toNat] at hz
  change _ = 0 at hz
  refine BitVec.eq_of_toNat_eq ?_
  rw [pack_toNat, opField_toNat, raField_toNat, rbField_toNat, immField_toNat]
  omega

/-! ### Registers and their fields -/

@[simp] theorem regOfField_fieldOfReg (r : Reg) : regOfField (fieldOfReg r) = r := by
  revert r; decide

@[simp] theorem fieldOfReg_regOfField (f : BitVec 3) : fieldOfReg (regOfField f) = f := by
  revert f; decide

@[simp] theorem fieldOfReg_toNat (r : Reg) : (fieldOfReg r).toNat = r.val := by
  revert r; decide

/-! ### An encoded word as a number -/

theorem encodeRR_toNat (op : BitVec 4) (ra rb : Reg) :
    (encodeRR op ra rb).toNat = op.toNat * 2 ^ 28 + (ra.val * 2 ^ 19 + rb.val * 2 ^ 16) := by
  rw [encodeRR, pack_toNat, fieldOfReg_toNat, fieldOfReg_toNat]
  change _ + 0 = _
  omega

theorem encodeR_toNat (op : BitVec 4) (ra : Reg) :
    (encodeR op ra).toNat = op.toNat * 2 ^ 28 + ra.val * 2 ^ 19 := by
  rw [encodeR, pack_toNat, fieldOfReg_toNat]
  change _ + 0 * 2 ^ 16 + 0 = _
  omega

theorem encodeI_toNat (op : BitVec 4) (imm : Word) :
    (encodeI op imm).toNat = op.toNat * 2 ^ 28 + imm.toNat := by
  rw [encodeI, pack_toNat]
  change _ + 0 * 2 ^ 19 + 0 * 2 ^ 16 + _ = _
  omega

/-! ### Inversion of the decoder -/

theorem decodeRR_eq_ok {variant : Reg → Reg → Instr} {w : InstrWord} {i : Instr} :
    decodeRR variant w = .ok i ↔
      immField w = 0 ∧ variant (regOfField (raField w)) (regOfField (rbField w)) = i := by
  unfold decodeRR; split <;> simp_all

theorem decodeR_eq_ok {variant : Reg → Instr} {w : InstrWord} {i : Instr} :
    decodeR variant w = .ok i ↔ rbField w = 0 ∧ immField w = 0 ∧ variant (regOfField (raField w)) = i := by
  unfold decodeR; split <;> (try split) <;> simp_all

theorem decodeI_eq_ok {variant : Word → Instr} {w : InstrWord} {i : Instr} :
    decodeI variant w = .ok i ↔ raField w = 0 ∧ rbField w = 0 ∧ variant (immField w) = i := by
  unfold decodeI; split <;> (try split) <;> simp_all

/-- A legal word has `z = 0`, an assigned opcode, and zero in every field that its format requires to be zero. -/
theorem decode_ok_cases {w : InstrWord} {i : Instr} (h : decode w = .ok i) :
    zField w = 0 ∧
      (((opField w).toNat ≤ 6 ∧ immField w = 0) ∨
       (((opField w).toNat = 7 ∨ (opField w).toNat = 8) ∧ rbField w = 0 ∧ immField w = 0) ∨
       (9 ≤ (opField w).toNat ∧ (opField w).toNat ≤ 14 ∧ raField w = 0 ∧ rbField w = 0)) := by
  unfold decode at h
  split at h
  · cases h
  · rename_i hz
    refine ⟨by simpa using hz, ?_⟩
    split at h <;> simp_all [decodeRR_eq_ok, decodeR_eq_ok, decodeI_eq_ok]

/-! ### Well-formedness -/

namespace Laws

/-- Every abstract instruction is well formed (R82). -/
theorem instr_wf (i : Instr) : i.wf = true := by
  cases i <;> simp [Instr.wf, Instr.toRaw, RawInstr.wf] <;> omega

end Laws

end Sys2Proof
end

