-- ==== Sys2Proof/Laws/State.lean ====
section
/-! SUPPORT. One lemma for each field under each update of the state, so that no proof unfolds a record update. -/

namespace Sys2Proof.Machine

/-! ### Reading a register after an update -/

@[simp] theorem State.setReg_reg_same (s : State) (r : Reg) (v : Word) : (s.setReg r v).reg r = v := by
  simp [State.reg, State.setReg]

theorem State.setReg_reg (s : State) (r q : Reg) (v : Word) :
    (s.setReg r v).reg q = if q = r then v else s.reg q := by
  simp [State.reg, State.setReg, Vector.getElem_set, Fin.ext_iff, eq_comm]

@[simp] theorem State.setReg_reg_ne (s : State) {r q : Reg} (v : Word) (h : q ≠ r) :
    (s.setReg r v).reg q = s.reg q := by
  rw [State.setReg_reg, if_neg h]

@[simp] theorem State.setSp_reg (s : State) (v : Word) (q : Reg) : (s.setSp v).reg q = s.reg q := rfl
@[simp] theorem State.setPc_reg (s : State) (v : Word) (q : Reg) : (s.setPc v).reg q = s.reg q := rfl
@[simp] theorem State.setZf_reg (s : State) (b : Bool) (q : Reg) : (s.setZf b).reg q = s.reg q := rfl
@[simp] theorem State.memWrite_reg (s : State) (a v : Word) (q : Reg) : (s.memWrite a v).reg q = s.reg q := rfl
@[simp] theorem State.initial_reg (c : Config) (q : Reg) : (State.initial c).reg q = 0 := by
  simp [State.initial, State.reg]

/-! ### The other elements after a register write -/

@[simp] theorem State.setReg_sp (s : State) (r : Reg) (v : Word) : (s.setReg r v).sp = s.sp := rfl
@[simp] theorem State.setReg_pc (s : State) (r : Reg) (v : Word) : (s.setReg r v).pc = s.pc := rfl
@[simp] theorem State.setReg_zf (s : State) (r : Reg) (v : Word) : (s.setReg r v).zf = s.zf := rfl
@[simp] theorem State.setReg_mem (s : State) (r : Reg) (v : Word) : (s.setReg r v).mem = s.mem := rfl
@[simp] theorem State.setReg_cfg (s : State) (r : Reg) (v : Word) : (s.setReg r v).cfg = s.cfg := rfl
@[simp] theorem State.setReg_cap (s : State) (r : Reg) (v : Word) : (s.setReg r v).cap = s.cap := rfl
@[simp] theorem State.setReg_memRead (s : State) (r : Reg) (v a : Word) :
    (s.setReg r v).memRead a = s.memRead a := rfl

/-! ### After a write of `sp` -/

@[simp] theorem State.setSp_sp (s : State) (v : Word) : (s.setSp v).sp = v := rfl
@[simp] theorem State.setSp_pc (s : State) (v : Word) : (s.setSp v).pc = s.pc := rfl
@[simp] theorem State.setSp_zf (s : State) (v : Word) : (s.setSp v).zf = s.zf := rfl
@[simp] theorem State.setSp_mem (s : State) (v : Word) : (s.setSp v).mem = s.mem := rfl
@[simp] theorem State.setSp_cfg (s : State) (v : Word) : (s.setSp v).cfg = s.cfg := rfl
@[simp] theorem State.setSp_cap (s : State) (v : Word) : (s.setSp v).cap = s.cap := rfl
@[simp] theorem State.setSp_memRead (s : State) (v a : Word) : (s.setSp v).memRead a = s.memRead a := rfl

/-! ### After a write of `pc` -/

@[simp] theorem State.setPc_sp (s : State) (v : Word) : (s.setPc v).sp = s.sp := rfl
@[simp] theorem State.setPc_pc (s : State) (v : Word) : (s.setPc v).pc = v := rfl
@[simp] theorem State.setPc_zf (s : State) (v : Word) : (s.setPc v).zf = s.zf := rfl
@[simp] theorem State.setPc_mem (s : State) (v : Word) : (s.setPc v).mem = s.mem := rfl
@[simp] theorem State.setPc_cfg (s : State) (v : Word) : (s.setPc v).cfg = s.cfg := rfl
@[simp] theorem State.setPc_cap (s : State) (v : Word) : (s.setPc v).cap = s.cap := rfl
@[simp] theorem State.setPc_memRead (s : State) (v a : Word) : (s.setPc v).memRead a = s.memRead a := rfl
@[simp] theorem State.setPc_setPc (s : State) (v w : Word) : (s.setPc v).setPc w = s.setPc w := rfl
theorem State.setPc_self (s : State) : s.setPc s.pc = s := rfl

/-! ### After a write of `zf` -/

@[simp] theorem State.setZf_sp (s : State) (b : Bool) : (s.setZf b).sp = s.sp := rfl
@[simp] theorem State.setZf_pc (s : State) (b : Bool) : (s.setZf b).pc = s.pc := rfl
@[simp] theorem State.setZf_zf (s : State) (b : Bool) : (s.setZf b).zf = b := rfl
@[simp] theorem State.setZf_mem (s : State) (b : Bool) : (s.setZf b).mem = s.mem := rfl
@[simp] theorem State.setZf_cfg (s : State) (b : Bool) : (s.setZf b).cfg = s.cfg := rfl
@[simp] theorem State.setZf_cap (s : State) (b : Bool) : (s.setZf b).cap = s.cap := rfl
@[simp] theorem State.setZf_memRead (s : State) (b : Bool) (a : Word) :
    (s.setZf b).memRead a = s.memRead a := rfl

/-! ### After a write of memory -/

@[simp] theorem State.memWrite_sp (s : State) (a v : Word) : (s.memWrite a v).sp = s.sp := rfl
@[simp] theorem State.memWrite_pc (s : State) (a v : Word) : (s.memWrite a v).pc = s.pc := rfl
@[simp] theorem State.memWrite_zf (s : State) (a v : Word) : (s.memWrite a v).zf = s.zf := rfl
@[simp] theorem State.memWrite_mem (s : State) (a v : Word) :
    (s.memWrite a v).mem = Memory.write s.mem a.toNat v := rfl
@[simp] theorem State.memWrite_cfg (s : State) (a v : Word) : (s.memWrite a v).cfg = s.cfg := rfl
@[simp] theorem State.memWrite_cap (s : State) (a v : Word) : (s.memWrite a v).cap = s.cap := rfl

/-! ### The construction state -/

@[simp] theorem State.initial_sp (c : Config) : (State.initial c).sp = 0 := rfl
@[simp] theorem State.initial_pc (c : Config) : (State.initial c).pc = 0 := rfl
@[simp] theorem State.initial_zf (c : Config) : (State.initial c).zf = false := rfl
@[simp] theorem State.initial_mem (c : Config) : (State.initial c).mem = [] := rfl
@[simp] theorem State.initial_cfg (c : Config) : (State.initial c).cfg = c := rfl
@[simp] theorem State.initial_memRead (c : Config) (a : Word) : (State.initial c).memRead a = 0 := rfl

/-! ### Two states are equal when all their elements are -/

/-- Registers are equal when every register reads the same. -/
theorem State.regs_ext {s t : State} (h : ∀ q, t.reg q = s.reg q) : t.regs = s.regs :=
  Vector.ext fun i hi => h ⟨i, hi⟩

/-- States are equal when every element and the parameters are. -/
theorem State.ext_of_elements {s t : State} (hr : ∀ q, t.reg q = s.reg q) (hsp : t.sp = s.sp) (hpc : t.pc = s.pc)
    (hzf : t.zf = s.zf) (hm : t.mem = s.mem) (hc : t.cfg = s.cfg) : t = s := by
  have := State.regs_ext hr
  cases s; cases t; simp_all

/-- Writing a register's own value changes nothing. -/
theorem State.setReg_self (s : State) (r : Reg) : s.setReg r (s.reg r) = s := by
  refine State.ext_of_elements (fun q => ?_) rfl rfl rfl rfl rfl
  rw [State.setReg_reg]; split <;> simp_all

end Sys2Proof.Machine
end

