-- ==== Sys2Proof/Laws/Memory.lean ====
section
/-! SUPPORT. Data memory as a canonical list: what a read gives after a write, that a write keeps the canonical form,
and that two canonical memories with the same words are the same list. -/

namespace Sys2Proof.Machine

theorem Memory.wf_nil : Memory.wf [] := ⟨List.Pairwise.nil, by simp⟩

theorem Memory.wf_tail {c : Cell} {m : Memory} (h : Memory.wf (c :: m)) : Memory.wf m :=
  ⟨(List.pairwise_cons.1 h.1).2, fun d hd => h.2 d (List.mem_cons_of_mem _ hd)⟩

/-- Where no entry has the address, the word is unlisted. -/
theorem Memory.read_of_not_listed {m : Memory} {a : Nat} (h : ∀ c ∈ m, c.1 ≠ a) :
    Memory.read m a = Memory.unlisted := by
  induction m with
  | nil => rfl
  | cons c m ih =>
    rw [Memory.read, if_neg (Ne.symm (h c (by simp)))]
    exact ih fun d hd => h d (List.mem_cons_of_mem _ hd)

/-- An entry below every listed address reads as unlisted. -/
theorem Memory.read_of_lt {m : Memory} {a : Nat} (h : ∀ c ∈ m, a < c.1) :
    Memory.read m a = Memory.unlisted :=
  Memory.read_of_not_listed fun c hc => Nat.ne_of_gt (h c hc)

/-- Nothing is listed at an erased address. -/
theorem Memory.not_listed_erase (m : Memory) (a : Nat) : ∀ c ∈ Memory.erase m a, c.1 ≠ a := by
  simp [Memory.erase]

/-- Erasing one address leaves every other address alone. -/
theorem Memory.read_erase_ne (m : Memory) {a b : Nat} (h : b ≠ a) :
    Memory.read (Memory.erase m a) b = Memory.read m b := by
  induction m with
  | nil => rfl
  | cons c m ih =>
    by_cases hc : c.1 = a
    · simpa [Memory.erase, List.filter_cons, hc, Memory.read, h] using ih
    · simpa [Memory.erase, List.filter_cons, hc, Memory.read] using congrArg (if b = c.1 then c.2 else ·) ih

/-- What an address reads as after an entry is put in. -/
theorem Memory.read_insert {m : Memory} {a : Nat} (v : Word) (h : ∀ c ∈ m, c.1 ≠ a) (b : Nat) :
    Memory.read (Memory.insert a v m) b = if b = a then v else Memory.read m b := by
  induction m with
  | nil => rfl
  | cons c m ih =>
    obtain ⟨hc, hm⟩ := List.forall_mem_cons.1 h
    simp only [Memory.insert]
    split
    · rfl
    · simp only [Memory.read, ih hm]
      by_cases hb : b = c.1
      · simp [hb, hc]
      · simp [hb]

/-- A read after a write to the same address gives the value written. -/
theorem Memory.read_write_same (m : Memory) (a : Nat) (v : Word) : Memory.read (Memory.write m a v) a = v := by
  unfold Memory.write
  split
  · rename_i hv; rw [Memory.read_of_not_listed (Memory.not_listed_erase m a), hv]
  · rw [Memory.read_insert v (Memory.not_listed_erase m a), if_pos rfl]

/-- A write leaves every other address alone. -/
theorem Memory.read_write_ne (m : Memory) {a b : Nat} (v : Word) (h : b ≠ a) :
    Memory.read (Memory.write m a v) b = Memory.read m b := by
  unfold Memory.write
  split
  · exact Memory.read_erase_ne m h
  · rw [Memory.read_insert v (Memory.not_listed_erase m a), if_neg h, Memory.read_erase_ne m h]

/-- The entries after one is put in. -/
theorem Memory.mem_insert {m : Memory} {a : Nat} {v : Word} {c : Cell} :
    c ∈ Memory.insert a v m ↔ c = (a, v) ∨ c ∈ m := by
  induction m with
  | nil => simp [Memory.insert]
  | cons d m ih =>
    simp only [Memory.insert]
    split
    · simp
    · simp only [List.mem_cons, ih]; tauto

/-- Every entry after a write was there before or is the one written. -/
theorem Memory.mem_write {m : Memory} {a : Nat} {v : Word} {c : Cell} (h : c ∈ Memory.write m a v) :
    c ∈ m ∨ c = (a, v) ∧ v ≠ Memory.unlisted := by
  unfold Memory.write at h
  split at h
  · exact .inl (List.mem_of_mem_filter h)
  · rename_i hv
    rcases Memory.mem_insert.1 h with h | h
    · exact .inr ⟨h, hv⟩
    · exact .inl (List.mem_of_mem_filter h)

/-- Putting an entry in keeps the addresses rising. -/
theorem Memory.insert_rising {m : Memory} {a : Nat} (v : Word) (hm : m.Pairwise fun c d => c.1 < d.1)
    (ha : ∀ c ∈ m, c.1 ≠ a) : (Memory.insert a v m).Pairwise fun c d => c.1 < d.1 := by
  induction m with
  | nil => simp [Memory.insert]
  | cons c m ih =>
    obtain ⟨hc, hm'⟩ := List.forall_mem_cons.1 ha
    obtain ⟨above, tail⟩ := List.pairwise_cons.1 hm
    simp only [Memory.insert]
    split
    · rename_i lt
      exact List.pairwise_cons.2 ⟨List.forall_mem_cons.2 ⟨lt, fun d hd => Nat.lt_trans lt (above d hd)⟩, hm⟩
    · refine List.pairwise_cons.2 ⟨fun d hd => ?_, ih tail hm'⟩
      rcases Memory.mem_insert.1 hd with rfl | hd
      · simp only; omega
      · exact above d hd

/-- A write keeps the canonical form. It is the only operation that makes a memory. -/
theorem Memory.write_wf {m : Memory} (hm : Memory.wf m) (a : Nat) (v : Word) : Memory.wf (Memory.write m a v) := by
  refine ⟨?_, fun c hc => ?_⟩
  · have erased : (Memory.erase m a).Pairwise fun c d => c.1 < d.1 := hm.1.filter _
    unfold Memory.write
    split
    · exact erased
    · exact Memory.insert_rising v erased (Memory.not_listed_erase m a)
  · rcases Memory.mem_write hc with hc | ⟨rfl, hv⟩
    · exact hm.2 c hc
    · exact hv

/-- Equal memories are equal data: two canonical memories in which every address reads the same are the same list. -/
theorem Memory.ext_of_reads {m n : Memory} (hm : Memory.wf m) (hn : Memory.wf n)
    (h : ∀ a, Memory.read m a = Memory.read n a) : m = n := by
  induction m generalizing n with
  | nil =>
    cases n with
    | nil => rfl
    | cons d n => exact absurd (h d.1).symm (by simpa [Memory.read] using hn.2 d (by simp))
  | cons c m ih =>
    cases n with
    | nil => exact absurd (h c.1) (by simpa [Memory.read] using hm.2 c (by simp))
    | cons d n =>
      have cAbove := (List.pairwise_cons.1 hm.1).1
      have dAbove := (List.pairwise_cons.1 hn.1).1
      have addr : c.1 = d.1 := by
        rcases Nat.lt_trichotomy c.1 d.1 with lt | eq | gt
        · refine absurd (h c.1) ?_
          rw [Memory.read_of_lt (m := d :: n) (List.forall_mem_cons.2
            ⟨lt, fun e he => Nat.lt_trans lt (dAbove e he)⟩)]
          simpa [Memory.read] using hm.2 c (by simp)
        · exact eq
        · refine absurd (h d.1).symm ?_
          rw [Memory.read_of_lt (m := c :: m) (List.forall_mem_cons.2
            ⟨gt, fun e he => Nat.lt_trans gt (cAbove e he)⟩)]
          simpa [Memory.read] using hn.2 d (by simp)
      have value : c.2 = d.2 := by simpa [Memory.read, addr] using h c.1
      have rest : m = n := ih (Memory.wf_tail hm) (Memory.wf_tail hn) fun a => by
        by_cases ha : a = c.1
        · subst ha
          rw [Memory.read_of_lt cAbove, Memory.read_of_lt (addr ▸ dAbove)]
        · simpa [Memory.read, ha, addr ▸ ha] using h a
      rw [rest, Prod.ext addr value]

/-! ### Through the state -/

theorem State.memWrite_memRead_same (s : State) (a v : Word) :
    (s.memWrite a v).memRead a = v := Memory.read_write_same s.mem a.toNat v

theorem State.memWrite_memRead_ne (s : State) {a b : Word} (v : Word) (h : b ≠ a) :
    (s.memWrite a v).memRead b = s.memRead b :=
  Memory.read_write_ne s.mem v fun e => h (BitVec.eq_of_toNat_eq e)

end Sys2Proof.Machine
end

