-- ==== Sys2Proof/Laws/Operands.lean ====
section
/-! SUPPORT. The machine's arithmetic in terms of the library's, and the bounds check as an inequality. -/

namespace Sys2Proof.Machine

theorem wrap_toNat (z : Int) : (wrap z).toNat = (z % 65536).toNat := by
  simp [wrap, BitVec.toNat_ofInt]

theorem add16_toNat (a b : Word) : (add16 a b).toNat = (a.toNat + b.toNat) % 65536 := by
  simp only [add16, wrap_toNat]; omega

theorem add16_eq (a b : Word) : add16 a b = a + b :=
  BitVec.eq_of_toNat_eq (by rw [add16_toNat, BitVec.toNat_add])

theorem sub16_toInt (a b : Word) : ((sub16 a b).toNat : Int) = ((a.toNat : Int) - b.toNat) % 65536 := by
  simp only [sub16, wrap_toNat]; omega

theorem sub16_eq (a b : Word) : sub16 a b = a - b :=
  BitVec.eq_of_toNat_eq (by have := sub16_toInt a b; rw [BitVec.toNat_sub]; omega)

theorem mul16_toNat (a b : Word) : (mul16 a b).toNat = (a.toNat * b.toNat) % 65536 := by
  simp only [mul16, wrap_toNat, ← Int.natCast_mul]; omega

/-- A quotient never exceeds the dividend, so `div16` wraps nothing (R114). -/
theorem div16_toNat (a b : Word) : (div16 a b).toNat = a.toNat / b.toNat := by
  have small : a.toNat / b.toNat < 65536 := Nat.lt_of_le_of_lt (Nat.div_le_self _ _) a.isLt
  rw [div16, wrap_toNat, ← Int.natCast_ediv]
  generalize a.toNat / b.toNat = q at small ⊢
  omega

theorem inBounds_iff {a : Word} {s : State} : inBounds a s = true ↔ a.toNat < s.cap := by
  simp [inBounds]

theorem not_inBounds_iff {a : Word} {s : State} : ¬ inBounds a s = true ↔ s.cap ≤ a.toNat := by
  simp [inBounds]

/-! The bounds check looks at the capacity only, which no update changes. -/

@[simp] theorem inBounds_setReg (s : State) (r : Reg) (v a : Word) : inBounds a (s.setReg r v) = inBounds a s := rfl
@[simp] theorem inBounds_setSp (s : State) (v a : Word) : inBounds a (s.setSp v) = inBounds a s := rfl
@[simp] theorem inBounds_setPc (s : State) (v a : Word) : inBounds a (s.setPc v) = inBounds a s := rfl
@[simp] theorem inBounds_setZf (s : State) (b : Bool) (a : Word) : inBounds a (s.setZf b) = inBounds a s := rfl
@[simp] theorem inBounds_memWrite (s : State) (b v a : Word) :
    inBounds a (s.memWrite b v) = inBounds a s := rfl

theorem one_toNat : (1 : Word).toNat = 1 := rfl

/-- The word below a non-zero one. -/
theorem sub16_one_toNat {a : Word} (h : a ≠ 0) : (sub16 a 1).toNat = a.toNat - 1 := by
  have diff := sub16_toInt a 1
  have pos : a.toNat ≠ 0 := fun e => h (BitVec.eq_of_toNat_eq (by simpa using e))
  rw [one_toNat] at diff
  omega

/-- The word above one that is in bounds of a legal capacity does not wrap (R151). -/
theorem add16_one_toNat {a : Word} (h : a.toNat < 65535) : (add16 a 1).toNat = a.toNat + 1 := by
  rw [add16_toNat, one_toNat]; omega

/-- Under `ZF_POLICY = never` a result leaves the flag as it is. -/
@[simp] theorem flagAfterResult_eq (old : Bool) (result : Word) : flagAfterResult old result = old := rfl

/-- The end of an arithmetic instruction is the write of its register. -/
@[simp] theorem writeResult_eq (r1 : Reg) (result : Word) (s : State) :
    writeResult r1 result s = s.setReg r1 result := rfl

end Sys2Proof.Machine
end

