-- ==== Sys2Proof/Laws/Exec.lean ====
section
/-! SUPPORT. What each instruction and each cycle can do, said once: one equation for each way an instruction ends, and
the inversion of a next state. Proofs cite these and unfold no meaning. -/

namespace Sys2Proof.Machine

open Sys2Proof.Safety

/-! ### One equation for each way an instruction ends -/

theorem exec_add (r1 r2 : Reg) (s : State) :
    exec (.add r1 r2) s = .next (s.setReg r1 (add16 (s.reg r1) (s.reg r2))) := rfl

theorem exec_sub (r1 r2 : Reg) (s : State) :
    exec (.sub r1 r2) s = .next (s.setReg r1 (sub16 (s.reg r1) (s.reg r2))) := rfl

theorem exec_mul (r1 r2 : Reg) (s : State) :
    exec (.mul r1 r2) s = .next (s.setReg r1 (mul16 (s.reg r1) (s.reg r2))) := rfl

theorem exec_div_by_zero {r2 : Reg} {s : State} (r1 : Reg) (h : s.reg r2 = 0) :
    exec (.div r1 r2) s = .fault .divisionByZero := if_pos h

theorem exec_div {r2 : Reg} {s : State} (r1 : Reg) (h : s.reg r2 ≠ 0) :
    exec (.div r1 r2) s = .next (s.setReg r1 (div16 (s.reg r1) (s.reg r2))) := if_neg h

theorem exec_mov (r1 r2 : Reg) (s : State) : exec (.mov r1 r2) s = .next (s.setReg r1 (s.reg r2)) := rfl

theorem exec_store {addrReg : Reg} {s : State} (valReg : Reg) (h : (s.reg addrReg).toNat < s.cap) :
    exec (.store addrReg valReg) s = .next (s.memWrite (s.reg addrReg) (s.reg valReg)) :=
  if_pos (inBounds_iff.2 h)

theorem exec_store_outside {addrReg : Reg} {s : State} (valReg : Reg) (h : s.cap ≤ (s.reg addrReg).toNat) :
    exec (.store addrReg valReg) s = .fault .memoryOutOfBounds := if_neg (not_inBounds_iff.2 h)

theorem exec_load {addrReg : Reg} {s : State} (dstReg : Reg) (h : (s.reg addrReg).toNat < s.cap) :
    exec (.load dstReg addrReg) s = .next (s.setReg dstReg (s.memRead (s.reg addrReg))) :=
  if_pos (inBounds_iff.2 h)

theorem exec_load_outside {addrReg : Reg} {s : State} (dstReg : Reg) (h : s.cap ≤ (s.reg addrReg).toNat) :
    exec (.load dstReg addrReg) s = .fault .memoryOutOfBounds := if_neg (not_inBounds_iff.2 h)

theorem exec_push {s : State} (r : Reg) (h : s.sp.toNat < s.cap) :
    exec (.push r) s = .next ((s.memWrite s.sp (s.reg r)).setSp (add16 s.sp 1)) := if_pos (inBounds_iff.2 h)

theorem exec_push_overflow {s : State} (r : Reg) (h : s.cap ≤ s.sp.toNat) :
    exec (.push r) s = .fault .stackOverflow := if_neg (not_inBounds_iff.2 h)

theorem exec_pop_underflow {s : State} (r : Reg) (h : s.sp = 0) : exec (.pop r) s = .fault .stackUnderflow :=
  if_pos h

theorem exec_pop_outside {s : State} (r : Reg) (h : s.sp ≠ 0) (hb : s.cap ≤ s.sp.toNat - 1) :
    exec (.pop r) s = .fault .memoryOutOfBounds :=
  (if_neg h).trans (if_neg (not_inBounds_iff.2 (by rwa [sub16_one_toNat h])))

theorem exec_pop {s : State} (r : Reg) (h : s.sp ≠ 0) (hb : s.sp.toNat - 1 < s.cap) :
    exec (.pop r) s = .next ((s.setSp (sub16 s.sp 1)).setReg r (s.memRead (sub16 s.sp 1))) :=
  (if_neg h).trans (if_pos (inBounds_iff.2 (by rwa [sub16_one_toNat h])))

theorem jumpIf_eq (taken : Bool) (target : Word) (s : State) :
    jumpIf taken target s = .next (s.setPc (if taken = true then target else s.pc)) := by
  cases taken <;> rfl

/-- A jump answers the state with `pc` at its target when it is taken, and the same state otherwise. -/
theorem exec_jump {i : Instr} (h : isJump i = true) (s : State) :
    exec i s = .next (s.setPc ((takenJump i s).getD s.pc)) := by
  cases i <;> simp only [isJump, Bool.false_eq_true] at h <;>
    simp only [exec, execJmp, execJmpZ, execJmpNZ, execJmpRel, execJmpZRel, execJmpNZRel, jumpIf_eq,
      absoluteTarget, relativeTarget, zeroFlagSet, zeroFlagClear, takenJump, add16_eq] <;>
    cases hz : s.zf <;> simp

/-! ### Inversion -/

/-- Every way an instruction can complete: it is a jump, or it writes a register, a word of memory, or `sp` and one
of the two; and what each of these needs. -/
theorem exec_next_cases {i : Instr} {s t : State} (h : exec i s = .next t) :
    (isJump i = true ∧ t = s.setPc ((takenJump i s).getD s.pc)) ∨
    (∃ r v, isJump i = false ∧ usesStack i = false ∧ writesMemory i = false ∧ writesRegs i = [r] ∧ t = s.setReg r v) ∨
    (∃ addrReg valReg, i = .store addrReg valReg ∧ (s.reg addrReg).toNat < s.cap ∧
      t = s.memWrite (s.reg addrReg) (s.reg valReg)) ∨
    (∃ r, i = .push r ∧ s.sp.toNat < s.cap ∧ t = (s.memWrite s.sp (s.reg r)).setSp (add16 s.sp 1)) ∨
    (∃ r, i = .pop r ∧ s.sp ≠ 0 ∧ s.sp.toNat - 1 < s.cap ∧
      t = (s.setSp (sub16 s.sp 1)).setReg r (s.memRead (sub16 s.sp 1))) := by
  cases hj : isJump i with
  | true =>
    rw [exec_jump hj] at h
    exact .inl ⟨rfl, (Host.Outcome.next.inj h).symm⟩
  | false =>
    right
    cases i with
    | add r1 r2 => exact .inl ⟨r1, _, rfl, rfl, rfl, rfl, (Host.Outcome.next.inj h).symm⟩
    | sub r1 r2 => exact .inl ⟨r1, _, rfl, rfl, rfl, rfl, (Host.Outcome.next.inj h).symm⟩
    | mul r1 r2 => exact .inl ⟨r1, _, rfl, rfl, rfl, rfl, (Host.Outcome.next.inj h).symm⟩
    | mov r1 r2 => exact .inl ⟨r1, _, rfl, rfl, rfl, rfl, (Host.Outcome.next.inj h).symm⟩
    | div r1 r2 =>
      by_cases hd : s.reg r2 = 0
      · rw [exec_div_by_zero r1 hd] at h; cases h
      · rw [exec_div r1 hd] at h
        exact .inl ⟨r1, _, rfl, rfl, rfl, rfl, (Host.Outcome.next.inj h).symm⟩
    | load dstReg addrReg =>
      rcases Nat.lt_or_ge (s.reg addrReg).toNat s.cap with hb | hb
      · rw [exec_load dstReg hb] at h
        exact .inl ⟨dstReg, _, rfl, rfl, rfl, rfl, (Host.Outcome.next.inj h).symm⟩
      · rw [exec_load_outside dstReg hb] at h; cases h
    | store addrReg valReg =>
      rcases Nat.lt_or_ge (s.reg addrReg).toNat s.cap with hb | hb
      · rw [exec_store valReg hb] at h
        exact .inr (.inl ⟨addrReg, valReg, rfl, hb, (Host.Outcome.next.inj h).symm⟩)
      · rw [exec_store_outside valReg hb] at h; cases h
    | push r =>
      rcases Nat.lt_or_ge s.sp.toNat s.cap with hb | hb
      · rw [exec_push r hb] at h
        exact .inr (.inr (.inl ⟨r, rfl, hb, (Host.Outcome.next.inj h).symm⟩))
      · rw [exec_push_overflow r hb] at h; cases h
    | pop r =>
      by_cases hs : s.sp = 0
      · rw [exec_pop_underflow r hs] at h; cases h
      · rcases Nat.lt_or_ge (s.sp.toNat - 1) s.cap with hb | hb
        · rw [exec_pop r hs hb] at h
          exact .inr (.inr (.inr ⟨r, rfl, hs, hb, (Host.Outcome.next.inj h).symm⟩))
        · rw [exec_pop_outside r hs hb] at h; cases h
    | jmp _ => cases hj
    | jmpZ _ => cases hj
    | jmpNZ _ => cases hj
    | jmpRel _ => cases hj
    | jmpZRel _ => cases hj
    | jmpNZRel _ => cases hj

/-! ### The sequencer -/

@[simp] theorem advancePc_eq (s : State) : advancePc s = s.setPc (s.pc + 1) := by
  simp [advancePc, add16_eq]

/-- Every way a cycle can complete. -/
theorem step_next_cases {s t : State} (h : step s = .next t) :
    ∃ w i, s.cfg.prog[s.pc.toNat]? = some w ∧ decode w = .ok i ∧ exec i (s.setPc (s.pc + 1)) = .next t := by
  unfold step sequencerCycle at h
  split at h
  · cases h
  · rename_i w hw
    split at h
    · cases h
    · rename_i i hi
      exact ⟨w, i, hw, hi, by simpa using h⟩

/-! ### Runs -/

theorem run_zero (s : State) : run 0 s = .next s := rfl

theorem run_of_next {s t : State} (h : step s = .next t) (n : Nat) : run (n + 1) s = run n t := by
  have h' : Sys2Proof.core.step s = .next t := h
  refine (Host.Core.run.eq_2 Sys2Proof.core s n).trans ?_
  rw [h']; rfl

theorem run_of_fault {s : State} {f : Fault} (h : step s = .fault f) (n : Nat) : run (n + 1) s = .fault f := by
  have h' : Sys2Proof.core.step s = .fault f := h
  refine (Host.Core.run.eq_2 Sys2Proof.core s n).trans ?_
  rw [h']; rfl

theorem run_of_refused {s : State} {r : Refusal} (h : step s = .refused r) (n : Nat) :
    run (n + 1) s = .refused r := by
  have h' : Sys2Proof.core.step s = .refused r := h
  refine (Host.Core.run.eq_2 Sys2Proof.core s n).trans ?_
  rw [h']; rfl

/-- A run of completed cycles begins with one. -/
theorem run_succ_next {n : Nat} {s t : State} (h : run (n + 1) s = .next t) :
    ∃ u, step s = .next u ∧ run n u = .next t := by
  cases hs : step s with
  | next u => exact ⟨u, rfl, by rwa [run_of_next hs] at h⟩
  | fault f => rw [run_of_fault hs] at h; cases h
  | refused r => rw [run_of_refused hs] at h; cases h

/-- An induction over a run, packaged once: what every completed cycle keeps holds of the state a run reaches. -/
theorem run_keeps {P : State → Prop} (keeps : ∀ s t, P s → step s = .next t → P t) {n : Nat} {s t : State}
    (hs : P s) (h : run n s = .next t) : P t := by
  induction n generalizing s with
  | zero => cases h; exact hs
  | succ n ih =>
    obtain ⟨u, hu, hr⟩ := run_succ_next h
    exact ih (keeps s u hs hu) hr

/-! ### The interface's own operations -/

/-- The word that `withFetchWord` places is the word that the next fetch reads. -/
theorem fetchWord_withFetchWord (s : State) (nbits w : Nat) :
    fetchWord (s.withFetchWord nbits w) = some (tableWord nbits w) := by
  simp only [fetchWord, State.withFetchWord, placeFetchWord, placeWord]
  split
  · rename_i h; simp [h]
  · rename_i h
    rw [List.getElem?_append_right (by simp; omega)]
    simp only [List.length_append, List.length_replicate]
    rw [show s.pc.toNat - (s.cfg.prog.length + (s.pc.toNat - s.cfg.prog.length)) = 0 by omega]
    rfl

end Sys2Proof.Machine
end

