-- ==== Sys2Proof/Laws/PerInstr.lean ====
section
/-! SUPPORT. A fact about every instruction as syntax, one lemma for each constructor: its word is a word of its own row
of spec/opcode_table.json (R85 to R88). -/

namespace Sys2Proof.Laws.EncodesItsRow

/-- The row of the instruction's number in R81 admits the instruction's word. -/
def Statement (i : Instr) : Prop :=
  ∃ row, opcodeTable[i.toRaw.variant]? = some row ∧ row.admits (encode i) = true

/-- A word of format RR with the mask of R85. -/
theorem admits_encodeRR (op : BitVec 4) (ra rb : Reg) :
    (OpcodeRow.mk 0xFFC0FFFF (pack op 0 0 0)).admits (encodeRR op ra rb) = true := by
  revert op ra rb; decide

/-- A word of format R with the mask of R86. -/
theorem admits_encodeR (op : BitVec 4) (ra : Reg) :
    (OpcodeRow.mk 0xFFC7FFFF (pack op 0 0 0)).admits (encodeR op ra) = true := by
  revert op ra; decide

/-- A word of format I with the mask of R87. -/
theorem admits_encodeI (op : BitVec 4) (imm : Word) :
    (OpcodeRow.mk 0xFFFF0000 (pack op 0 0 0)).admits (encodeI op imm) = true := by
  simp only [OpcodeRow.admits, beq_iff_eq]
  refine BitVec.eq_of_getLsbD_eq fun k hk => ?_
  have high : (0xFFFF0000 : InstrWord).getLsbD k = decide (16 ≤ k) := by
    revert k; decide
  simp only [encodeI, pack, BitVec.getLsbD_and, high, BitVec.getLsbD_append]
  by_cases h : k < 16
  · simp [h]
  · have : 16 ≤ k := by omega
    simp [h, this]

theorem add (r1 r2 : Reg) : Statement (.add r1 r2) := ⟨_, rfl, admits_encodeRR 0 r1 r2⟩
theorem sub (r1 r2 : Reg) : Statement (.sub r1 r2) := ⟨_, rfl, admits_encodeRR 1 r1 r2⟩
theorem mul (r1 r2 : Reg) : Statement (.mul r1 r2) := ⟨_, rfl, admits_encodeRR 2 r1 r2⟩
theorem div (r1 r2 : Reg) : Statement (.div r1 r2) := ⟨_, rfl, admits_encodeRR 3 r1 r2⟩
theorem mov (r1 r2 : Reg) : Statement (.mov r1 r2) := ⟨_, rfl, admits_encodeRR 4 r1 r2⟩
theorem store (addrReg valReg : Reg) : Statement (.store addrReg valReg) :=
  ⟨_, rfl, admits_encodeRR 5 addrReg valReg⟩
theorem load (dstReg addrReg : Reg) : Statement (.load dstReg addrReg) :=
  ⟨_, rfl, admits_encodeRR 6 dstReg addrReg⟩
theorem push (r : Reg) : Statement (.push r) := ⟨_, rfl, admits_encodeR 7 r⟩
theorem pop (r : Reg) : Statement (.pop r) := ⟨_, rfl, admits_encodeR 8 r⟩
theorem jmp (addr : Word) : Statement (.jmp addr) := ⟨_, rfl, admits_encodeI 9 addr⟩
theorem jmpZ (addr : Word) : Statement (.jmpZ addr) := ⟨_, rfl, admits_encodeI 10 addr⟩
theorem jmpNZ (addr : Word) : Statement (.jmpNZ addr) := ⟨_, rfl, admits_encodeI 11 addr⟩
theorem jmpRel (off : Word) : Statement (.jmpRel off) := ⟨_, rfl, admits_encodeI 12 off⟩
theorem jmpZRel (off : Word) : Statement (.jmpZRel off) := ⟨_, rfl, admits_encodeI 13 off⟩
theorem jmpNZRel (off : Word) : Statement (.jmpNZRel off) := ⟨_, rfl, admits_encodeI 14 off⟩

end Sys2Proof.Laws.EncodesItsRow
end

