-- ==== Sys2Proof/Tests/Slice0.lean ====
section
/-! SUPPORT. Tests. The expected values are those of spec/95_test_vectors.md (their ids stand in the names) or are worked
out by hand from the rule named. Then one witness for each obligation that has hypotheses. -/

namespace Sys2Proof.Tests

open Sys2Proof Sys2Proof.Machine Sys2Proof.Safety

/-- A machine right after construction, with no program. -/
def bare (cap : Nat) : State := State.initial { memCapacity := cap, prog := [] }

/-- A machine right after construction, with a program. -/
def loaded (cap : Nat) (prog : List InstrWord) : State := State.initial { memCapacity := cap, prog := prog }

/-! ### Decoding: words written out from spec/30_encoding.md R84 to R89, `op z ra rb imm` bit by bit -/

theorem test_decode_add : decode 0b0000_000000_001_010_0000000000000000#32 = .ok (.add 1 2) := by decide
theorem test_decode_sub : decode 0b0001_000000_111_000_0000000000000000#32 = .ok (.sub 7 0) := by decide
theorem test_decode_mul : decode 0b0010_000000_000_001_0000000000000000#32 = .ok (.mul 0 1) := by decide
theorem test_decode_div : decode 0b0011_000000_110_111_0000000000000000#32 = .ok (.div 6 7) := by decide
theorem test_decode_mov : decode 0b0100_000000_011_100_0000000000000000#32 = .ok (.mov 3 4) := by decide
theorem test_decode_store : decode 0b0101_000000_001_010_0000000000000000#32 = .ok (.store 1 2) := by decide
theorem test_decode_load : decode 0b0110_000000_011_001_0000000000000000#32 = .ok (.load 3 1) := by decide
theorem test_decode_push : decode 0b0111_000000_101_000_0000000000000000#32 = .ok (.push 5) := by decide
theorem test_decode_pop : decode 0b1000_000000_010_000_0000000000000000#32 = .ok (.pop 2) := by decide
theorem test_decode_jmp : decode 0b1001_000000_000_000_0000000000001100#32 = .ok (.jmp 12) := by decide
theorem test_decode_jmpZ : decode 0b1010_000000_000_000_1000000000000001#32 = .ok (.jmpZ 0x8001) := by decide
theorem test_decode_jmpNZ : decode 0b1011_000000_000_000_0000000000000101#32 = .ok (.jmpNZ 5) := by decide
theorem test_decode_jmpRel : decode 0b1100_000000_000_000_1111111111111101#32 = .ok (.jmpRel 0xFFFD) := by decide
theorem test_decode_jmpZRel : decode 0b1101_000000_000_000_0000000000000100#32 = .ok (.jmpZRel 4) := by decide
theorem test_decode_jmpNZRel : decode 0b1110_000000_000_000_1111111111111111#32 = .ok (.jmpNZRel 0xFFFF) := by decide

theorem test_decode_DE_2_unassigned_opcode : decode 0xF0000000#32 = .error .unassignedOpcode := by decide
theorem test_decode_DE_4_z_bit_22 : decode 0x00400000#32 = .error .zNotZero := by decide
theorem test_decode_z_bit_27 : decode 0x08000000#32 = .error .zNotZero := by decide
theorem test_decode_DE_6_imm_in_RR : decode 0x00000001#32 = .error .immNotZero := by decide
theorem test_decode_DE_7_rb_in_R : decode 0x70010000#32 = .error .rbNotZero := by decide
theorem test_decode_DE_8_imm_in_R : decode 0x70000001#32 = .error .immNotZero := by decide
theorem test_decode_DE_9_ra_in_I : decode 0x90080000#32 = .error .raNotZero := by decide
theorem test_decode_DE_10_rb_in_I : decode 0x90010000#32 = .error .rbNotZero := by decide

theorem test_encode_words : encode (.add 1 2) = 0x000A0000#32 ∧ encode (.div 6 7) = 0x30370000#32 ∧
    encode (.store 1 2) = 0x500A0000#32 ∧ encode (.load 3 1) = 0x60190000#32 ∧
    encode (.pop 3) = 0x80180000#32 ∧ encode (.jmpNZRel 0xFFFF) = 0xE000FFFF#32 := by decide
theorem test_opcode_table_rows_do_not_overlap :
    opcodeTable.Pairwise fun a b => a.value &&& (a.mask &&& b.mask) ≠ b.value &&& (a.mask &&& b.mask) := by decide
theorem test_decodeTableWord : decodeTableWord 32 0x60190000 = some (.load 3 1) ∧
    decodeTableWord 32 0xF0000000 = none := by decide

/-! ### Well-formedness: an ill-formed term for each check -/

theorem test_wf_capacity_65536_refused : Config.wf { memCapacity := 65536, prog := [] } = false := by decide
theorem test_wf_capacity_65535_taken : Config.wf { memCapacity := 65535, prog := [] } = true := by decide
theorem test_wf_program_of_65537_words_refused (h : prog.length = 65537) :
    Config.wf { memCapacity := 0, prog := prog } = false := by simp [Config.wf, h]
theorem test_wf_register_8_refused : RawInstr.wf ⟨0, [8, 0]⟩ = false := by decide
theorem test_wf_pushed_register_8_refused : RawInstr.wf ⟨7, [8]⟩ = false := by decide
theorem test_wf_operand_count_RR_refused : RawInstr.wf ⟨6, [1]⟩ = false := by decide
theorem test_wf_operand_count_R_refused : RawInstr.wf ⟨8, [1, 2]⟩ = false := by decide
theorem test_wf_operand_count_I_refused : RawInstr.wf ⟨9, []⟩ = false := by decide
theorem test_wf_immediate_65536_refused : RawInstr.wf ⟨12, [65536]⟩ = false := by decide
theorem test_wf_variant_15_refused : RawInstr.wf ⟨15, [0]⟩ = false := by decide
theorem test_wf_instr_taken : Instr.wf (.jmpRel 0xFFFF) = true := by decide

/-! ### The instructions at the step port -/

theorem test_add_AR_1 : let o := stepPort (.add 0 1) (((bare 0).setReg 0 0xFFFF).setReg 1 1)
    o.1 = some .ok ∧ o.2.reg 0 = 0 ∧ o.2.reg 1 = 1 ∧ o.2.zf = false := by decide
theorem test_add_AR_2_same_register : (stepPort (.add 0 0) ((bare 0).setReg 0 0x8000)).2.reg 0 = 0 := by decide
theorem test_sub_AR_3 : (stepPort (.sub 0 1) ((bare 0).setReg 1 1)).2.reg 0 = 0xFFFF := by decide
theorem test_sub_AR_15_flag_kept : let o := stepPort (.sub 0 0) (((bare 0).setReg 0 3).setZf true)
    o.2.reg 0 = 0 ∧ o.2.zf = true := by decide
theorem test_mul_AR_6 :
    (stepPort (.mul 0 1) (((bare 0).setReg 0 0xFFFF).setReg 1 0xFFFF)).2.reg 0 = 1 := by decide
theorem test_mul_AR_7 : (stepPort (.mul 0 1) (((bare 0).setReg 0 0xFFFF).setReg 1 2)).2.reg 0 = 0xFFFE := by decide
theorem test_div_AR_9_unsigned :
    (stepPort (.div 0 1) (((bare 0).setReg 0 0xFFFE).setReg 1 2)).2.reg 0 = 0x7FFF := by decide
theorem test_div_AR_11 : let s := (bare 0).setReg 0 5
    stepPort (.div 0 1) s = (some .divisionByZero, s) := by decide
theorem test_mov_DM_1 : let o := stepPort (.mov 0 1) ((bare 0).setReg 1 0x1234)
    o.2.reg 0 = 0x1234 ∧ o.2.reg 1 = 0x1234 := by decide
theorem test_store_DM_3_last_word :
    (stepPort (.store 1 2) (((bare 8).setReg 1 7).setReg 2 0xBEEF)).2.mem = [(7, 0xBEEF)] := by decide
theorem test_store_DM_4_first_outside : let s := ((bare 8).setReg 1 8).setReg 2 0xBEEF
    stepPort (.store 1 2) s = (some .memoryOutOfBounds, s) := by decide
theorem test_load_DM_8_address_read_first :
    (stepPort (.load 1 1) (((bare 8).memWrite 2 0xABCD).setReg 1 2)).2.reg 1 = 0xABCD := by decide
theorem test_load_DM_10_no_memory : let s := (bare 0).setReg 0 0x77
    stepPort (.load 0 1) s = (some .memoryOutOfBounds, s) := by decide
theorem test_push_PS_3_last_slot : let o := stepPort (.push 0) (((bare 4).setReg 0 0x99).setSp 3)
    o.1 = some .ok ∧ o.2.memRead 3 = 0x99 ∧ o.2.sp = 4 := by decide
theorem test_push_PS_4 : let s := ((bare 4).setReg 0 0x99).setSp 4
    stepPort (.push 0) s = (some .stackOverflow, s) := by decide
theorem test_pop_PS_9 : let o := stepPort (.pop 0) (((bare 4).memWrite 3 4).setSp 4)
    o.2.reg 0 = 4 ∧ o.2.sp = 3 ∧ o.2.memRead 3 = 4 := by decide
theorem test_pop_PS_7 : let s := ((bare 4).setReg 0 0x11).setSp 6
    stepPort (.pop 0) s = (some .memoryOutOfBounds, s) := by decide
theorem test_jmp_CT_2 : (stepPort (.jmp 65535) ((bare 0).setPc 3)).2.pc = 0xFFFF := by decide
theorem test_jmpZ_CT_3 : (stepPort (.jmpZ 5) (((bare 0).setPc 3).setZf true)).2.pc = 5 := by decide
theorem test_jmpZ_CT_4 : (stepPort (.jmpZ 5) ((bare 0).setPc 3)).2.pc = 3 := by decide
theorem test_jmpNZ_CT_5 : (stepPort (.jmpNZ 5) ((bare 0).setPc 3)).2.pc = 5 := by decide
theorem test_jmpNZ_CT_6 : (stepPort (.jmpNZ 5) (((bare 0).setPc 3).setZf true)).2.pc = 3 := by decide
theorem test_jmpRel_CT_7 : (stepPort (.jmpRel 0xFFFD) ((bare 0).setPc 10)).2.pc = 7 := by decide
theorem test_jmpRel_CT_8_wraps : (stepPort (.jmpRel 3) ((bare 0).setPc 0xFFFE)).2.pc = 1 := by decide
theorem test_jmpZRel_CT_11 : (stepPort (.jmpZRel 4) (((bare 0).setPc 4).setZf true)).2.pc = 8 := by decide
theorem test_jmpZRel_CT_12 : (stepPort (.jmpZRel 4) ((bare 0).setPc 4)).2.pc = 4 := by decide
theorem test_jmpNZRel_CT_13 : (stepPort (.jmpNZRel 0xFFFF) (bare 0)).2.pc = 0xFFFF := by decide
theorem test_jmpNZRel_CT_14 : (stepPort (.jmpNZRel 0xFFFF) ((bare 0).setZf true)).2.pc = 0 := by decide

/-! ### The sequencer -/

theorem test_cycle_SQ_1_empty_program : cycle (bare 0) = (some .ended, bare 0) := by decide
theorem test_cycle_SQ_2_illegal : let s := loaded 0 [0xF0000000]
    cycle s = (some .illegalInstruction, s) := by decide
theorem test_cycle_SQ_3_add : let o := cycle ((loaded 0 [0x00000000]).setReg 0 5)
    o.1 = some .ok ∧ o.2.reg 0 = 10 ∧ o.2.pc = 1 := by decide
theorem test_cycle_SQ_4_precise_fault : let s := (loaded 0 [0x30010000]).setReg 0 5
    cycle s = (some .divisionByZero, s) := by decide
theorem test_cycle_SQ_5_self_loop : (cycle ((loaded 0 [0, 0, 0xC000FFFF]).setPc 2)).2.pc = 2 := by decide
theorem test_cycle_SQ_7_outside_program : let s := (loaded 0 [0, 0, 0]).setPc 5
    cycle s = (some .ended, s) := by decide
theorem test_advance_SQ_6_wraps : (advancePc ((bare 0).setPc 0xFFFF)).pc = 0 := by decide
theorem test_withFetchWord_first_after_reset :
    (cycle (State.reset.withFetchWord 32 0x70000000)).1 = some .ok ∧
    (cycle (State.reset.withFetchWord 32 0x70000000)).2.sp = 1 := by decide

/-! ### Memory, construction, the host's ports -/

theorem test_memory_write_of_zero_unlists : Memory.write [(3, 5)] 3 0 = [] := by decide
theorem test_memory_write_keeps_order : Memory.write [(1, 5), (9, 6)] 4 7 = [(1, 5), (4, 7), (9, 6)] := by decide
theorem test_construct_refuses_65536 : construct 65536 [] = none := by decide
theorem test_resetInput_keeps_program :
    resetInput (((loaded 4 [0]).setReg 3 7).setZf true) = loaded 4 [0] := by decide
theorem test_host_write_below_capacity : (hostWrite (.mem 3) (.word 9) (bare 4)).isSome = true ∧
    hostWrite (.mem 4) (.word 9) (bare 4) = none ∧ hostWrite .zf (.word 1) (bare 4) = none := by decide
theorem test_snapshot_R46 : snapshot ((((bare 2).setReg 7 5).setZf true).memWrite 1 6) =
    [0, 0, 0, 0, 0, 0, 0, 5, 0, 0, 1, 0, 6] := by decide
theorem test_restore_R46 : let s := (((bare 2).setReg 7 5).setZf true).memWrite 1 6
    restore (snapshot s) ((bare 2).memWrite 0 8) = some s := by decide
theorem test_restore_refuses_other_capacity : restore (snapshot (bare 2)) (bare 3) = none := by decide
theorem test_serialise_orders : serialise .littleEndian [0x1234] = [0x34, 0x12] ∧
    serialise .bigEndian [0x1234] = [0x12, 0x34] := by decide
theorem test_result_codes_R206 : Result.divisionByZero.code = 1 ∧ Result.ended.code = 6 := by decide

/-! ### The textual syntax (R96 to R98) -/

theorem test_parse_R96_examples : parseInstr "Add(r1, r2)".toList = some (.add 1 2) ∧
    parseInstr "Sub(0,1)".toList = some (.sub 0 1) ∧ parseInstr "Push(r0)".toList = some (.push 0) ∧
    parseInstr "Jmp(12)".toList = some (.jmp 12) ∧ parseInstr "JmpRel(-3)".toList = some (.jmpRel 0xFFFD) := by decide
theorem test_parse_refuses : parseInstr "add(r1, r2)".toList = none ∧ parseInstr "Add(r8, r2)".toList = none ∧
    parseInstr "Jmp(65536)".toList = none ∧ parseInstr "Jmp(-32769)".toList = none ∧
    parseInstr "Add(r1)".toList = none ∧ parseInstr "Nop()".toList = none := by decide
theorem test_assemble_word : assemble "Store( 1 , r2 )".toList = some 0x500A0000 := by decide
theorem test_print : printInstr (.jmpRel 0xFFFD) = "JmpRel(0xfffd)".toList := by decide

/-! ### Witnesses: a concrete case that meets the hypotheses of each obligation, clause by clause -/

/-- Two registers with values, in a machine of four words. -/
def two : State := ((bare 4).setReg 0 1).setReg 1 2

theorem witness_ConstructionSetsEveryElement :
    (65535 ≤ 65535 ∧ ([0xF0000000] : List InstrWord).length ≤ 65536) ∧ (0 ≤ 65535 ∧ ([] : List InstrWord).length ≤ 65536) := by
  decide
theorem witness_ResetInputRestoresConstruction : two.cfg.wf = true := by decide
theorem witness_DivGivesQuotientOrFaults : (two.reg 3).toNat = 0 ∧ (two.reg 1).toNat ≠ 0 := by decide
theorem witness_StoreWritesOneWordOrFaults :
    (two.setReg 2 4).cap ≤ (indirect 2 (two.setReg 2 4)).toNat ∧
    (indirect 2 (two.setReg 2 3)).toNat < (two.setReg 2 3).cap := by decide
theorem witness_LoadReadsOneWordOrFaults :
    (two.setReg 2 4).cap ≤ (indirect 2 (two.setReg 2 4)).toNat ∧
    (indirect 2 (two.setReg 2 3)).toNat < (two.setReg 2 3).cap := by decide
theorem witness_PushWritesAtStackPointerOrFaults :
    (two.setSp 4).cap ≤ (two.setSp 4).sp.toNat ∧ (two.setSp 3).sp.toNat < (two.setSp 3).cap ∧
    (two.setSp 3).cfg.wf = true := by decide
theorem witness_PopReadsBelowStackPointerOrFaults :
    two.sp.toNat = 0 ∧
    ((two.setSp 5).sp.toNat ≠ 0 ∧ (two.setSp 5).cap ≤ (two.setSp 5).sp.toNat - 1) ∧
    ((two.setSp 4).sp.toNat ≠ 0 ∧ (two.setSp 4).sp.toNat - 1 < (two.setSp 4).cap) ∧
    ((two.setSp 1).sp.toNat ≠ 0 ∧ (two.setSp 1).sp.toNat - 1 < (two.setSp 1).cap) := by decide
theorem witness_JmpSetsPc : let s := loaded 4 [encode (.jmp 1)]
    s.cfg.prog[s.pc.toNat]? = some (encode (.jmp 1)) ∧ s.cfg.prog.length ≤ (1 : Word).toNat := by decide
theorem witness_JmpRelAddsToPc : let s := loaded 4 [encode (.jmpRel 0xFFFF)]
    s.cfg.prog[s.pc.toNat]? = some (encode (.jmpRel 0xFFFF)) := by decide
theorem witness_FaultsExactlyByTheTable :
    (∀ f, ¬ FaultCause (.pop 0) (two.setSp 4) f) ∧ FaultCause (.pop 0) two .stackUnderflow ∧
    FaultCause (.pop 0) (two.setSp 5) .memoryOutOfBounds :=
  ⟨fun f h => by rcases h with ⟨-, h⟩ | ⟨-, h⟩ <;> revert h <;> decide, .inl (by decide), .inr (by decide)⟩
theorem witness_StepPortRaisesNoSequencerOutcome :
    (cycle (loaded 0 [0xF0000000])).1 = some .illegalInstruction ∧ (cycle (bare 0)).1 = some .ended := by decide
theorem witness_ZeroFlagIsReadAndNeverWritten :
    exec (.add 0 1) two = .next (two.setReg 0 3) ∧ readsZeroFlag (.add 0 1) = false ∧
    exec (.jmpZ 9) two = .next two ∧ exec (.jmpZRel 9) (two.setZf true) = .next ((two.setZf true).setPc 9) ∧
    exec (.jmpNZ 9) two = .next (two.setPc 9) ∧ exec (.jmpNZRel 9) two = .next (two.setPc 9) :=
  ⟨rfl, rfl, rfl, rfl, rfl, rfl⟩
theorem witness_PcWrittenOnlyByTakenJumps :
    (exec (.add 0 1) two = .next (two.setReg 0 3) ∧ isJump (.add 0 1) = false) ∧
    exec (.jmp 9) two = .next (two.setPc 9) := ⟨⟨rfl, rfl⟩, rfl⟩
theorem witness_RegistersReadAndWrittenByTable :
    (exec (.mov 0 1) two = .next (two.setReg 0 2) ∧ (1 : Reg) ∉ writesRegs (.mov 0 1)) ∧
    (0 : Reg) ∉ readsRegs (.mov 0 1) ∧ (5 : Reg) ∉ readsRegs (.mov 0 1) := ⟨⟨rfl, by decide⟩, by decide, by decide⟩
theorem witness_RegistersOfTheRowAreWrittenAndRead :
    (0 : Reg) ∈ writesRegs (.mov 0 1) ∧ (7 : Reg) ∈ writesRegs (.pop 7) ∧ (1 : Reg) ∈ readsRegs (.mov 0 1) ∧
    (7 : Reg) ∈ readsRegs (.sub 7 7) := by decide
theorem witness_StackPointerUsedOnlyByPushAndPop :
    usesStack (.store 0 1) = false ∧ exec (.store 0 1) two = .next (two.memWrite 1 2) := ⟨rfl, rfl⟩
theorem witness_MemoryReachedOnlyByFourInstructions :
    (writesMemory (.load 2 0) = false ∧ exec (.load 2 0) two = .next two) ∧
    exec (.store 0 1) two = .next (two.memWrite 1 2) ∧
    exec (.push 1) two = .next ((two.memWrite 0 2).setSp 1) ∧
    (readsMemory (.add 0 1) = false ∧ writesMemory (.add 0 1) = false) ∧
    (withMem [(3, 8)] two).memRead (indirect 0 two) = two.memRead (indirect 0 two) ∧
    (withMem [(3, 8)] (two.setSp 2)).memRead (sub16 (two.setSp 2).sp 1) =
      (two.setSp 2).memRead (sub16 (two.setSp 2).sp 1) :=
  ⟨⟨rfl, rfl⟩, rfl, rfl, ⟨rfl, rfl⟩, by decide, by decide⟩
theorem witness_StackInvariantKept :
    (StackWithinCapacity (two.setSp 3) ∧
      exec (.push 1) (two.setSp 3) = .next (((two.setSp 3).memWrite 3 2).setSp 4)) ∧
    two.cap < 65535 ∧ ¬ StackWithinCapacity (two.setSp 5) := ⟨⟨by decide, rfl⟩, by decide, by decide⟩
theorem witness_PushThenPopLaw : two.cfg.wf = true ∧ (two.setSp 3).sp.toNat < (two.setSp 3).cap ∧
    (two.setSp 4).cap ≤ (two.setSp 4).sp.toNat := by decide
theorem witness_LoadSeesLatestStore :
    ((indirect 0 two).toNat < two.cap ∧ (indirect 1 two).toNat < two.cap ∧ indirect 1 two ≠ indirect 0 two) ∧
    indirect 0 two = indirect 0 two := by decide
theorem witness_StackAndDataShareMemory :
    ((two.setSp 1).sp.toNat < (two.setSp 1).cap ∧ indirect 0 (two.setSp 1) = (two.setSp 1).sp) ∧
    ((two.setSp 2).sp.toNat ≠ 0 ∧ (two.setSp 2).sp.toNat ≤ (two.setSp 2).cap ∧
      indirect 0 (two.setSp 2) = (two.setSp 2).sp - 1) := by decide
theorem witness_IdentityInstructions : let s := loaded 4 [encode (.jmpRel 0)]
    s.cfg.prog[s.pc.toNat]? = some (encode (.jmpRel 0)) := by decide
theorem witness_RelativeOffsetIsSigned :
    exec (.jmpRel 0xFFFF) (two.setPc 3) = .next ((two.setPc 3).setPc 2) ∧
    ((two.setZf true).zf = true ∧ exec (.jmpZRel 0x8000) (two.setZf true) = .next ((two.setZf true).setPc 0x8000)) ∧
    (two.zf = false ∧ exec (.jmpNZRel 0x7FFF) two = .next (two.setPc 0x7FFF)) ∧ 16 ≤ 16 ∧ 16 ≤ 32 :=
  ⟨rfl, ⟨rfl, rfl⟩, ⟨rfl, rfl⟩, by decide, by decide⟩
theorem witness_StepRunsDecodedInstruction : let s := loaded 4 [0x000A0000]
    s.cfg.prog[s.pc.toNat]? = some 0x000A0000#32 ∧ decode 0x000A0000#32 = .ok (.add 1 2) := by decide
theorem witness_CycleTransaction :
    ((bare 4).cfg.prog.length ≤ (bare 4).pc.toNat) ∧
    ((loaded 4 [0xF0000000]).cfg.prog[(0 : Nat)]? = some 0xF0000000#32 ∧
      decode 0xF0000000#32 = .error .unassignedOpcode) ∧
    (decode 0x80000000#32 = .ok (.pop 0) ∧
      (stepPort (.pop 0) ((loaded 4 [0x80000000]).setPc 1)).1 = some .stackUnderflow) ∧
    (decode 0x00000000#32 = .ok (.add 0 0) ∧ (stepPort (.add 0 0) ((loaded 4 [0]).setPc 1)).1 = some .ok) ∧
    decode 0xC0000003#32 = .ok (.jmpRel 3) ∧ decode 0x90000003#32 = .ok (.jmp 3) := by decide
theorem witness_CycleEndsOutsideProgram : (bare 4).cfg.prog.length ≤ (bare 4).pc.toNat := by decide
theorem witness_FaultingCycleIsPrecise : let s := loaded 4 [0x80000000]
    cycle s = (some .stackUnderflow, s) ∧ Result.stackUnderflow.isFault = true := by decide
theorem witness_CycleAdvancesPcOrJumps : let s := loaded 4 [0x000A0000]
    (s.cfg.prog[s.pc.toNat]? = some 0x000A0000#32 ∧ decode 0x000A0000#32 = .ok (.add 1 2) ∧
      step s = .next ((s.setPc 1).setReg 1 0)) ∧ isJump (.add 1 2) = false := ⟨⟨rfl, rfl, rfl⟩, rfl⟩
theorem witness_ProgramStoreNeverWritten :
    exec (.store 0 1) two = .next (two.memWrite 1 2) ∧ writesMemory (.store 0 1) = true ∧
    run 1 (loaded 4 [0x9000000C]) = .next ((loaded 4 [0x9000000C]).setPc 12) := ⟨rfl, rfl, rfl⟩
theorem witness_ZeroFlagStaysClearWithoutHostWrites :
    run 1 (loaded 4 [0x9000000C]) = .next ((loaded 4 [0x9000000C]).setPc 12) ∧
    (interact (two.setZf true) .reset).2.zf ≠ (two.setZf true).zf ∧
    (interact two (.write .zf (.flag true))).2.zf ≠ two.zf := ⟨rfl, by decide, by decide⟩
theorem witness_OnlyZerosWithoutHostWrites :
    (AllZero (loaded 4 [0x9000000C]) ∧ step (loaded 4 [0x9000000C]) = .next ((loaded 4 [0x9000000C]).setPc 12)) ∧
    run 1 (loaded 4 [0x9000000C]) = .next ((loaded 4 [0x9000000C]).setPc 12) :=
  ⟨⟨⟨State.initial_reg _, State.initial_memRead _⟩, rfl⟩, rfl⟩
theorem witness_TakenJumpsToThemselvesRunForever :
    (loaded 4 [0xC000FFFF]).cfg.prog[(0 : Nat)]? = some (encode (.jmpRel 0xFFFF)) ∧
    (loaded 4 [0x90000000]).cfg.prog[(0 : Nat)]? = some (encode (.jmp (loaded 4 [0x90000000]).pc)) ∧
    (loaded 4 [0xB0000000]).cfg.prog[(0 : Nat)]? = some (encode (.jmpNZ (loaded 4 [0xB0000000]).pc)) ∧
    (loaded 4 [0xB0000000]).zf = false := by decide
theorem witness_RunStopsAtOneCycle : run 3 (bare 4) = .fault .endOfRun ∧
    run 2 (loaded 4 [0x00000000]) = .fault .endOfRun := ⟨rfl, rfl⟩
theorem witness_HostReadsBackWhatItWrites :
    (3 : Word).toNat < two.cap ∧ hostWrite (.mem 3) (.word 9) two = some (two.memWrite 3 9) ∧
    Element.mem 2 ≠ .mem 3 ∧ hostWrite .zf (.flag true) two = some (two.setZf true) := by decide
theorem witness_HostPortDeclinesOtherRequests :
    two.cap ≤ (4 : Word).toNat ∧ Element.sp ≠ .zf ∧ hostRead (.mem 4) two = none ∧
    hostWrite .zf (.word 1) two = none ∧ ([0, 0, 0, 0, 0, 0, 0, 0, 0, 0, 2] : List Word)[10]? = some 2 := by decide
theorem witness_HostPortDeclinesOtherRequests_program : ∃ prog : List InstrWord, 65536 < prog.length :=
  ⟨List.replicate 65537 0, by rw [List.length_replicate]; decide⟩
theorem witness_LoadingReplacesTheProgramOnly : ([0x000A0000] : List InstrWord).length ≤ 65536 := by decide
theorem witness_SnapshotLayout : 0 < two.cap ∧ 3 < two.cap := by decide
theorem witness_SnapshotRestoresState :
    (Legal (two.memWrite 3 9) ∧ Legal (loaded 4 [0]) ∧ (loaded 4 [0]).cap = (two.memWrite 3 9).cap) ∧
    restore (snapshot two) (bare 4) = some two := by decide
theorem witness_ConstructionMeetsInvariant : construct 4 [0] = some (loaded 4 [0]) := by decide
theorem witness_StepKeepsInvariant : let s := (loaded 4 [0x70000000]).setSp 3
    Inv s ∧ (cycle s).1 = some .ok ∧ (cycle s).2.sp = 4 := by decide
theorem witness_EveryInteractionKeepsLegality :
    Legal (two.setSp 4) ∧ StackWithinCapacity (two.setSp 4) ∧ (∀ v, Interaction.cycle ≠ .write .sp v) :=
  ⟨by decide, by decide, fun _ => by simp⟩
theorem witness_EncodeInvertsDecode : decode 0x500A0000#32 = .ok (.store 1 2) := by decide
theorem witness_FieldsCarryOperands : decode 0x60190000#32 = .ok (.load 3 1) ∧ decode 0x80380000#32 = .ok (.pop 7) ∧
    decode 0xA000FFFF#32 = .ok (.jmpZ 0xFFFF) := by decide
theorem witness_IllegalWordsExactly : let s := loaded 4 [0x90080000]
    s.cfg.prog[s.pc.toNat]? = some 0x90080000#32 ∧ decode 0x90080000#32 = .error .raNotZero := by decide
theorem witness_ImmediateSpellings :
    65535 ≤ 65535 ∧ 65535 < 65536 ∧ 32768 ≤ 32768 ∧ 32768 < 32769 := by decide

end Sys2Proof.Tests
end

section
/-! PROOFS. What construction accepts and gives, what every completed instruction keeps of a legal state, and the signed
reading of a relative jump's offset (the statements of spec/00_scope.md). -/

namespace Sys2Proof

theorem Config.wf_iff {c : Config} : c.wf = true ↔ c.memCapacity ≤ 65535 ∧ c.prog.length ≤ 65536 := by
  simp [Config.wf]

theorem Config.atReset_wf : Config.atReset.wf = true := by decide

end Sys2Proof

namespace Sys2Proof.Machine

open Sys2Proof.Safety

/-! ### Construction (R6, R230, D9) -/

theorem construct_eq_none_iff {capacity : Nat} {prog : List InstrWord} :
    construct capacity prog = none ↔ 65535 < capacity ∨ 65536 < prog.length := by
  rw [construct, ite_eq_right_iff, imp_iff_not (by simp), Config.wf_iff, not_and_or, not_le, not_le]

theorem construct_eq_some_iff {capacity : Nat} {prog : List InstrWord} {s : State} :
    construct capacity prog = some s ↔
      Config.wf ⟨capacity, prog⟩ = true ∧ State.initial ⟨capacity, prog⟩ = s := by
  simp [construct]

/-- The construction state with legal parameters lists no memory word and has `sp = 0`, so it meets the invariant. -/
theorem initial_inv {c : Config} (h : c.wf = true) : Inv (State.initial c) :=
  ⟨⟨h, Memory.wf_nil, by simp⟩, by simp [StackWithinCapacity]⟩

/-! ### What a completed instruction keeps (R26, R33) -/

/-- Legality is a matter of the parameters and of memory alone. -/
theorem legal_of_same_mem {s t : State} (hs : Legal s) (hm : t.mem = s.mem) (hc : t.cfg = s.cfg) : Legal t := by
  simpa [Legal, MemoryInBounds, State.cap, hm, hc] using hs

/-- A write inside the capacity keeps memory canonical, and lists nothing at or above `CAP`. -/
theorem memWrite_legal {s : State} {a : Word} (hs : Legal s) (ha : a.toNat < s.cap) (v : Word) :
    Legal (s.memWrite a v) := by
  obtain ⟨hcfg, hwf, hbounds⟩ := hs
  refine ⟨hcfg, Memory.write_wf hwf a.toNat v, fun c hc => ?_⟩
  rcases Memory.mem_write hc with old | ⟨rfl, -⟩
  · exact hbounds c old
  · exact ha

/-- Every instruction that completes keeps a legal state legal: the parameters stay, and Store and Push write inside the
capacity only. -/
theorem exec_keeps_legal {i : Instr} {s t : State} (hs : Legal s) (h : exec i s = .next t) : Legal t := by
  rcases exec_next_cases h with ⟨-, rfl⟩ | ⟨_, _, -, -, -, -, rfl⟩ | ⟨_, _, -, ha, rfl⟩ | ⟨_, -, ha, rfl⟩ |
    ⟨_, -, -, -, rfl⟩
  · exact legal_of_same_mem hs rfl rfl -- a jump
  · exact legal_of_same_mem hs rfl rfl -- a register write
  · exact memWrite_legal hs ha _ -- Store
  · exact legal_of_same_mem (memWrite_legal hs ha _) rfl rfl -- Push
  · exact legal_of_same_mem hs rfl rfl -- Pop

/-- Every instruction that completes keeps `sp ≤ CAP`: a Push needs `sp < CAP`, and a Pop lowers `sp` (R26). -/
theorem exec_keeps_stack {i : Instr} {s t : State} (hs : StackWithinCapacity s) (h : exec i s = .next t) :
    StackWithinCapacity t := by
  rcases exec_next_cases h with ⟨-, rfl⟩ | ⟨_, _, -, -, -, -, rfl⟩ | ⟨_, _, -, -, rfl⟩ | ⟨_, -, below, rfl⟩ |
    ⟨_, -, nonzero, below, rfl⟩
  · exact hs -- a jump
  · exact hs -- a register write
  · exact hs -- Store
  · -- Push
    have := add16_toNat s.sp 1
    have := one_toNat
    simp only [StackWithinCapacity, State.setSp_sp, State.setSp_cap, State.memWrite_cap]
    omega
  · -- Pop
    have := sub16_one_toNat nonzero
    simp only [StackWithinCapacity, State.setReg_sp, State.setSp_sp, State.setReg_cap, State.setSp_cap]
    omega

theorem exec_keeps_inv {i : Instr} {s t : State} (hs : Inv s) (h : exec i s = .next t) : Inv t :=
  ⟨exec_keeps_legal hs.1 h, exec_keeps_stack hs.2 h⟩

/-- The advance of `pc` before the instruction is no part of the invariant. -/
theorem setPc_inv {s : State} (hs : Inv s) (v : Word) : Inv (s.setPc v) := hs

theorem step_keeps_inv {s t : State} (hs : Inv s) (h : step s = .next t) : Inv t := by
  obtain ⟨_, _, -, -, hexec⟩ := step_next_cases h
  exact exec_keeps_inv (setPc_inv hs _) hexec

/-! ### The signed view of a word (R11), and relative jumps (R90) -/

theorem s16_eq_toInt (v : Word) : s16 v = v.toInt := by
  rw [BitVec.toInt_eq_toNat_cond, s16]
  split <;> split <;> omega

/-- Adding a word modulo 2^16 is adding its signed reading: the two readings differ by 0 or by 2^16. -/
theorem toNat_add_s16 (a v : Word) : ((a + v).toNat : Int) = ((a.toNat : Int) + s16 v) % 65536 := by
  rw [BitVec.toNat_add, s16]
  split <;> omega

/-- `sext_N` is the library's sign extension at every width that a word fits in. -/
theorem ofNat_sext {n : Nat} (v : Word) (hn : 16 ≤ n) : BitVec.ofNat n (sext n v) = v.signExtend n := by
  have fits : 2 ^ 16 ≤ 2 ^ n := Nat.pow_le_pow_right (by decide) hn
  have := v.isLt
  refine BitVec.eq_of_toNat_eq ?_
  rw [BitVec.toNat_ofNat, BitVec.toNat_signExtend, BitVec.toNat_setWidth, BitVec.msb_eq_decide, sext,
    Nat.mod_eq_of_lt (Nat.lt_of_lt_of_le v.isLt fits)]
  by_cases low : v.toNat < 0x8000
  · have msb_clear : ¬ 2 ^ (16 - 1) ≤ v.toNat := by omega
    simp only [low, msb_clear, if_true, decide_false]
    exact Nat.mod_eq_of_lt (by omega)
  · have msb_set : 2 ^ (16 - 1) ≤ v.toNat := by omega
    simp only [low, msb_set, if_false, decide_true, if_true]
    rw [Nat.mod_eq_of_lt (by omega)]
    omega

/-- A jump that is taken sets `pc` to its target and changes nothing else (R28). -/
theorem exec_takenJump {i : Instr} {s : State} {target : Word} (jump : isJump i = true)
    (taken : takenJump i s = some target) : exec i s = .next (s.setPc target) := by
  rw [exec_jump jump, taken, Option.getD_some]

/-- A relative jump that is taken moves `pc` by the signed reading of its offset. -/
theorem pc_of_takenJump_rel {i : Instr} {off : Word} {s t : State} (jump : isJump i = true)
    (taken : takenJump i s = some (s.pc + off)) (h : exec i s = .next t) :
    (t.pc.toNat : Int) = ((s.pc.toNat : Int) + s16 off) % 65536 := by
  rw [exec_takenJump jump taken] at h
  cases h
  exact toNat_add_s16 s.pc off

end Sys2Proof.Machine

namespace Sys2Proof.Proofs

open Sys2Proof.Machine

/-- Settles O49: it holds, by the inversion of a cycle and of the instruction it runs. -/
theorem stepKeepsInvariant : Obligations.StepKeepsInvariant := fun _ _ => step_keeps_inv

/-- Settles O33: it holds. Each of the three jumps is taken, with target `pc + off`. -/
theorem relativeOffsetIsSigned : Obligations.RelativeOffsetIsSigned := by
  refine ⟨fun off s t h => ?_, s16_eq_toInt, fun _ v => ofNat_sext v⟩
  rcases h with h | ⟨hz, h⟩ | ⟨hz, h⟩
  · exact pc_of_takenJump_rel rfl rfl h
  · exact pc_of_takenJump_rel (i := .jmpZRel off) rfl (if_pos hz) h
  · exact pc_of_takenJump_rel (i := .jmpNZRel off) rfl (if_pos hz) h

/-- Settles O2: it holds. Construction tests the two ranges of R6 and nothing else. -/
theorem constructionRefusesIllegalConfigurations : Obligations.ConstructionRefusesIllegalConfigurations :=
  fun _ _ => construct_eq_none_iff

/-- Settles O48: it holds. Construction gives construction states with legal parameters, and `State.reset` is one. -/
theorem constructionMeetsInvariant : Obligations.ConstructionMeetsInvariant := by
  refine ⟨fun _ _ _ h => ?_, initial_inv Config.atReset_wf⟩
  obtain ⟨hwf, rfl⟩ := construct_eq_some_iff.1 h
  exact initial_inv hwf

end Sys2Proof.Proofs
end

section
/-! PROOFS. What a transaction and a host access do to the state vector (the statements of spec/10_state.md): the
sequencer's equations, the inversion of every interaction, what an instruction reads and writes, and the snapshot. -/

namespace Sys2Proof.Machine

open Sys2Proof.Safety

/-! ### The step port and the sequencer port (R39, R42, R43) -/

/-- Every instruction either completes or raises a fault of R200's table; none is refused. -/
theorem exec_next_or_fault (i : Instr) (s : State) :
    (∃ t, exec i s = .next t) ∨ ∃ f, exec i s = .fault f ∧ FaultCause i s f := by
  cases i with
  | add _ _ => exact .inl ⟨_, rfl⟩
  | sub _ _ => exact .inl ⟨_, rfl⟩
  | mul _ _ => exact .inl ⟨_, rfl⟩
  | mov _ _ => exact .inl ⟨_, rfl⟩
  | div r1 r2 =>
    by_cases hd : s.reg r2 = 0
    · exact .inr ⟨_, exec_div_by_zero r1 hd, rfl, congrArg BitVec.toNat hd⟩
    · exact .inl ⟨_, exec_div r1 hd⟩
  | store _ valReg =>
    rcases Nat.lt_or_ge _ s.cap with hb | hb
    · exact .inl ⟨_, exec_store valReg hb⟩
    · exact .inr ⟨_, exec_store_outside valReg hb, rfl, hb⟩
  | load dstReg _ =>
    rcases Nat.lt_or_ge _ s.cap with hb | hb
    · exact .inl ⟨_, exec_load dstReg hb⟩
    · exact .inr ⟨_, exec_load_outside dstReg hb, rfl, hb⟩
  | push r =>
    rcases Nat.lt_or_ge s.sp.toNat s.cap with hb | hb
    · exact .inl ⟨_, exec_push r hb⟩
    · exact .inr ⟨_, exec_push_overflow r hb, rfl, hb⟩
  | pop r =>
    by_cases hs : s.sp = 0
    · exact .inr ⟨_, exec_pop_underflow r hs, .inl ⟨rfl, congrArg BitVec.toNat hs⟩⟩
    · rcases Nat.lt_or_ge (s.sp.toNat - 1) s.cap with hb | hb
      · exact .inl ⟨_, exec_pop r hs hb⟩
      · have : s.sp.toNat ≠ 0 := fun e => hs (BitVec.eq_of_toNat_eq e)
        exact .inr ⟨_, exec_pop_outside r hs hb, .inr ⟨rfl, by omega⟩⟩
  | jmp _ => exact .inl ⟨_, exec_jump rfl s⟩
  | jmpZ _ => exact .inl ⟨_, exec_jump rfl s⟩
  | jmpNZ _ => exact .inl ⟨_, exec_jump rfl s⟩
  | jmpRel _ => exact .inl ⟨_, exec_jump rfl s⟩
  | jmpZRel _ => exact .inl ⟨_, exec_jump rfl s⟩
  | jmpNZRel _ => exact .inl ⟨_, exec_jump rfl s⟩

theorem faultCause_of_exec {i : Instr} {s : State} {f : Fault} (h : exec i s = .fault f) : FaultCause i s f := by
  rcases exec_next_or_fault i s with ⟨t, ht⟩ | ⟨g, hg, cause⟩
  · rw [ht] at h; cases h
  · rw [hg] at h; cases h; exact cause

/-- The end of the run is no fault of R200's table: only the sequencer answers it (R205). -/
theorem not_faultCause_endOfRun (i : Instr) (s : State) : ¬ FaultCause i s .endOfRun := by
  cases i <;> simp [FaultCause]

theorem stepPort_of_next {i : Instr} {s t : State} (h : exec i s = .next t) : stepPort i s = (some .ok, t) := by
  simp only [stepPort, h]; rfl

theorem stepPort_of_fault {i : Instr} {s : State} {f : Fault} (h : exec i s = .fault f) :
    stepPort i s = (some (Result.ofFault f), s) := by
  simp only [stepPort, h]; rfl

theorem cycle_of_next {s t : State} (h : step s = .next t) : cycle s = (some .ok, t) := by
  simp only [cycle, h]; rfl

theorem cycle_of_fault {s : State} {f : Fault} (h : step s = .fault f) :
    cycle s = (some (Result.ofFault f), s) := by
  simp only [cycle, h]; rfl

theorem step_of_end {s : State} (h : s.cfg.prog.length ≤ s.pc.toNat) : step s = .fault .endOfRun := by
  simp only [step, sequencerCycle, fetchWord, List.getElem?_eq_none h]; rfl

theorem step_of_illegal {s : State} {w : InstrWord} {e : IllegalWord} (hw : s.cfg.prog[s.pc.toNat]? = some w)
    (he : decode w = .error e) : step s = .fault .illegalInstruction := by
  simp only [step, sequencerCycle, fetchWord, hw, he]; rfl

/-- A cycle runs the decoded instruction with `pc` already advanced. -/
theorem step_of_decoded {s : State} {w : InstrWord} {i : Instr} (hw : s.cfg.prog[s.pc.toNat]? = some w)
    (hi : decode w = .ok i) : step s = exec i (s.setPc (s.pc + 1)) := by
  simp only [step, sequencerCycle, fetchWord, hw, hi, advancePc_eq]

/-- The end of the run is answered only outside the program: inside it, the word is illegal or an instruction runs, and
neither answers so. -/
theorem step_eq_endOfRun_iff {s : State} : step s = .fault .endOfRun ↔ s.cfg.prog.length ≤ s.pc.toNat := by
  refine ⟨fun h => ?_, step_of_end⟩
  by_contra inside
  have hw := List.getElem?_eq_getElem (Nat.lt_of_not_le inside)
  cases hd : decode s.cfg.prog[s.pc.toNat] with
  | error e => rw [step_of_illegal hw hd] at h; cases h
  | ok i =>
    rw [step_of_decoded hw hd] at h
    exact not_faultCause_endOfRun i _ (faultCause_of_exec h)

/-- A cycle completes or stops with a fault; it is never refused. -/
theorem step_next_or_fault (s : State) : (∃ t, step s = .next t) ∨ ∃ f, step s = .fault f := by
  rcases Nat.lt_or_ge s.pc.toNat s.cfg.prog.length with inside | outside
  · have hw := List.getElem?_eq_getElem inside
    cases hd : decode s.cfg.prog[s.pc.toNat] with
    | error e => exact .inr ⟨_, step_of_illegal hw hd⟩
    | ok i =>
      rw [step_of_decoded hw hd]
      exact (exec_next_or_fault i _).imp_right fun ⟨f, hf, _⟩ => ⟨f, hf⟩
  · exact .inr ⟨_, step_of_end outside⟩

theorem cycle_ended_iff {s : State} : (cycle s).1 = some .ended ↔ s.cfg.prog.length ≤ s.pc.toNat := by
  rw [← step_eq_endOfRun_iff]
  rcases step_next_or_fault s with ⟨t, h⟩ | ⟨f, h⟩
  · simp [cycle_of_next h, h]
  · rw [cycle_of_fault h, h]
    cases f <;> simp [Result.ofFault]

/-! ### What a completed instruction writes (R22, R24, R28, R31) -/

theorem takenJump_of_not_jump {i : Instr} (h : isJump i = false) (s : State) : takenJump i s = none := by
  cases i <;> simp_all [isJump, takenJump]

/-- Only a taken jump writes `pc` (R28). -/
theorem exec_pc {i : Instr} {s t : State} (h : exec i s = .next t) : t.pc = (takenJump i s).getD s.pc := by
  rcases exec_next_cases h with ⟨-, rfl⟩ | ⟨_, _, notJump, -, -, -, rfl⟩ | ⟨_, _, rfl, -, rfl⟩ | ⟨_, rfl, -, rfl⟩ |
    ⟨_, rfl, -, -, rfl⟩
  · rfl -- a jump
  · rw [takenJump_of_not_jump notJump]; rfl -- a register write
  · rfl -- Store
  · rfl -- Push
  · rfl -- Pop

/-- No instruction writes `zf` (R31). -/
theorem exec_zf {i : Instr} {s t : State} (h : exec i s = .next t) : t.zf = s.zf := by
  rcases exec_next_cases h with ⟨-, rfl⟩ | ⟨_, _, -, -, -, -, rfl⟩ | ⟨_, _, -, -, rfl⟩ | ⟨_, -, -, rfl⟩ |
    ⟨_, -, -, -, rfl⟩ <;> rfl

theorem step_zf {s t : State} (h : step s = .next t) : t.zf = s.zf := by
  obtain ⟨_, _, -, -, hexec⟩ := step_next_cases h
  rw [exec_zf hexec, State.setPc_zf]

/-- Only Push and Pop write `sp` (R24). -/
theorem exec_sp {i : Instr} {s t : State} (noStack : usesStack i = false) (h : exec i s = .next t) :
    t.sp = s.sp := by
  rcases exec_next_cases h with ⟨-, rfl⟩ | ⟨_, _, -, -, -, -, rfl⟩ | ⟨_, _, -, -, rfl⟩ | ⟨_, rfl, -, -⟩ |
    ⟨_, rfl, -, -, -⟩
  · rfl -- a jump
  · rfl -- a register write
  · rfl -- Store
  · cases noStack -- Push
  · cases noStack -- Pop

/-- No register outside the row of R22 is written. -/
theorem exec_reg_of_notMem {i : Instr} {s t : State} {q : Reg} (h : exec i s = .next t) (hq : q ∉ writesRegs i) :
    t.reg q = s.reg q := by
  rcases exec_next_cases h with ⟨-, rfl⟩ | ⟨r, _, -, -, -, row, rfl⟩ | ⟨_, _, -, -, rfl⟩ | ⟨_, -, -, rfl⟩ |
    ⟨r, rfl, -, -, rfl⟩
  · rfl -- a jump
  · exact State.setReg_reg_ne s _ (by simpa [row] using hq) -- a register write
  · rfl -- Store
  · rfl -- Push
  · exact State.setReg_reg_ne (s.setSp _) _ (by simpa [writesRegs] using hq) -- Pop

/-- A jump that is not taken changes nothing (R170). -/
theorem exec_notTakenJump {i : Instr} {s : State} (jump : isJump i = true) (notTaken : takenJump i s = none) :
    exec i s = .next s := by
  rw [exec_jump jump, notTaken, Option.getD_none, State.setPc_self]

/-! ### What an instruction does not depend on -/

/-- What instruction `i` reads is the same in both states: the registers of its row (R22), `sp` for Push and Pop (R24),
memory for Load and Pop (R62), the capacity, and whether and where it jumps (R28, R31). -/
structure SameReads (i : Instr) (s t : State) : Prop where
  regs : ∀ q ∈ readsRegs i, t.reg q = s.reg q
  cap : t.cap = s.cap
  sp : usesStack i = true → t.sp = s.sp
  mem : readsMemory i = true → SameMemory s t
  jump : takenJump i t = takenJump i s

/-- The updates by which instruction `i` can complete, with the values it writes. -/
inductive Update : Instr → (State → State) → Prop where
  | jump {i : Instr} (target : Option Word) (jump : isJump i = true) :
      Update i fun x => x.setPc (target.getD x.pc)
  | reg {i : Instr} {r : Reg} (v : Word) (row : writesRegs i = [r]) (noStack : usesStack i = false) :
      Update i fun x => x.setReg r v
  | store (addrReg valReg : Reg) (a v : Word) : Update (.store addrReg valReg) fun x => x.memWrite a v
  | push (r : Reg) (a v sp : Word) : Update (.push r) fun x => (x.memWrite a v).setSp sp
  | pop (r : Reg) (v sp : Word) : Update (.pop r) fun x => (x.setSp sp).setReg r v

/-- In two states that agree on what it reads, an instruction raises the same fault or makes the same update. -/
theorem exec_of_sameReads {i : Instr} {s t : State} (h : SameReads i s t) :
    (∃ f, exec i s = .fault f ∧ exec i t = .fault f) ∨
      ∃ u, Update i u ∧ exec i s = .next (u s) ∧ exec i t = .next (u t) := by
  obtain ⟨regs, cap, sp, mem, jump⟩ := h
  have ofJump (hj : isJump i = true) : ∃ u, Update i u ∧ exec i s = .next (u s) ∧ exec i t = .next (u t) :=
    ⟨_, .jump (takenJump i s) hj, exec_jump hj s, by rw [exec_jump hj, jump]⟩
  cases i with
  | add r1 r2 => exact .inr ⟨_, .reg _ rfl rfl, exec_add r1 r2 s, by
      rw [exec_add, regs r1 (by simp [readsRegs]), regs r2 (by simp [readsRegs])]⟩
  | sub r1 r2 => exact .inr ⟨_, .reg _ rfl rfl, exec_sub r1 r2 s, by
      rw [exec_sub, regs r1 (by simp [readsRegs]), regs r2 (by simp [readsRegs])]⟩
  | mul r1 r2 => exact .inr ⟨_, .reg _ rfl rfl, exec_mul r1 r2 s, by
      rw [exec_mul, regs r1 (by simp [readsRegs]), regs r2 (by simp [readsRegs])]⟩
  | mov r1 r2 => exact .inr ⟨_, .reg _ rfl rfl, exec_mov r1 r2 s, by rw [exec_mov, regs r2 (by simp [readsRegs])]⟩
  | div r1 r2 =>
    have h1 := regs r1 (by simp [readsRegs])
    have h2 := regs r2 (by simp [readsRegs])
    by_cases hd : s.reg r2 = 0
    · exact .inl ⟨_, exec_div_by_zero r1 hd, exec_div_by_zero r1 (h2.trans hd)⟩
    · exact .inr ⟨_, .reg _ rfl rfl, exec_div r1 hd, by rw [exec_div r1 (h2 ▸ hd), h1, h2]⟩
  | store addrReg valReg =>
    have ha := regs addrReg (by simp [readsRegs])
    have hv := regs valReg (by simp [readsRegs])
    rcases Nat.lt_or_ge (s.reg addrReg).toNat s.cap with hb | hb
    · exact .inr ⟨_, .store _ _ _ _, exec_store valReg hb, by rw [exec_store valReg (by rwa [ha, cap]), ha, hv]⟩
    · exact .inl ⟨_, exec_store_outside valReg hb, exec_store_outside valReg (by rwa [ha, cap])⟩
  | load dstReg addrReg =>
    have ha := regs addrReg (by simp [readsRegs])
    rcases Nat.lt_or_ge (s.reg addrReg).toNat s.cap with hb | hb
    · exact .inr ⟨_, .reg _ rfl rfl, exec_load dstReg hb, by rw [exec_load dstReg (by rwa [ha, cap]), ha, mem rfl]⟩
    · exact .inl ⟨_, exec_load_outside dstReg hb, exec_load_outside dstReg (by rwa [ha, cap])⟩
  | push r =>
    have hr := regs r (by simp [readsRegs])
    rcases Nat.lt_or_ge s.sp.toNat s.cap with hb | hb
    · exact .inr ⟨_, .push _ _ _ _, exec_push r hb, by rw [exec_push r (by rwa [sp rfl, cap]), sp rfl, hr]⟩
    · exact .inl ⟨_, exec_push_overflow r hb, exec_push_overflow r (by rwa [sp rfl, cap])⟩
  | pop r =>
    have hsp := sp rfl
    by_cases h0 : s.sp = 0
    · exact .inl ⟨_, exec_pop_underflow r h0, exec_pop_underflow r (hsp.trans h0)⟩
    · rcases Nat.lt_or_ge (s.sp.toNat - 1) s.cap with hb | hb
      · exact .inr ⟨_, .pop _ _ _, exec_pop r h0 hb, by
          rw [exec_pop r (hsp ▸ h0) (by rwa [hsp, cap]), hsp, mem rfl]⟩
      · exact .inl ⟨_, exec_pop_outside r h0 hb, exec_pop_outside r (hsp ▸ h0) (by rwa [hsp, cap])⟩
  | jmp _ => exact .inr (ofJump rfl)
  | jmpZ _ => exact .inr (ofJump rfl)
  | jmpNZ _ => exact .inr (ofJump rfl)
  | jmpRel _ => exact .inr (ofJump rfl)
  | jmpZRel _ => exact .inr (ofJump rfl)
  | jmpNZRel _ => exact .inr (ofJump rfl)

/-- Noninterference, packaged once: a change of what an instruction does not read goes through the instruction when it
goes through each of its updates. -/
theorem exec_onNext {i : Instr} {s t : State} {g : State → State} (reads : SameReads i s t)
    (through : ∀ u, Update i u → u t = g (u s)) : exec i t = onNext g (exec i s) := by
  rcases exec_of_sameReads reads with ⟨f, hs, ht⟩ | ⟨u, hu, hs, ht⟩
  · rw [hs, ht]; rfl
  · rw [hs, ht, through u hu]; rfl

theorem takenJump_setZf {i : Instr} (h : readsZeroFlag i = false) (s : State) (b : Bool) :
    takenJump i (s.setZf b) = takenJump i s := by
  cases i <;> simp_all [readsZeroFlag, takenJump]

theorem takenJump_setSp (i : Instr) (s : State) (v : Word) : takenJump i (s.setSp v) = takenJump i s := by
  cases i <;> rfl

theorem takenJump_setReg (i : Instr) (s : State) (r : Reg) (v : Word) :
    takenJump i (s.setReg r v) = takenJump i s := by
  cases i <;> rfl

/-- The flag has no influence but on the conditional jumps (R31). -/
theorem exec_setZf {i : Instr} (h : readsZeroFlag i = false) (s : State) (b : Bool) :
    exec i (s.setZf b) = onNext (fun t => t.setZf b) (exec i s) :=
  exec_onNext ⟨fun _ _ => rfl, rfl, fun _ => rfl, fun _ _ => rfl, takenJump_setZf h s b⟩ fun _ hu => by
    cases hu <;> rfl

/-- `sp` has no influence but on Push and Pop (R24). -/
theorem exec_setSp {i : Instr} (h : usesStack i = false) (s : State) (v : Word) :
    exec i (s.setSp v) = onNext (fun t => t.setSp v) (exec i s) :=
  exec_onNext ⟨fun _ _ => rfl, rfl, by simp [h], fun _ _ => rfl, takenJump_setSp i s v⟩ fun _ hu => by
    cases hu with
    | jump _ _ => rfl
    | reg _ _ _ => rfl
    | store _ _ _ _ => rfl
    | push _ _ _ _ => cases h
    | pop _ _ _ => cases h

/-- A second register write hides the first one, or does not touch it. -/
theorem State.setReg_setReg (s : State) (r q : Reg) (v w : Word) :
    (s.setReg r v).setReg q w = if r ∈ [q] then s.setReg q w else (s.setReg q w).setReg r v := by
  simp only [List.mem_singleton]
  refine State.ext_of_elements (fun p => ?_) ?_ ?_ ?_ ?_ ?_
  · split <;> simp only [State.setReg_reg] <;> grind
  all_goals split <;> rfl

theorem writesRegs_of_jump {i : Instr} (h : isJump i = true) : writesRegs i = [] := by
  cases i <;> simp_all [isJump, writesRegs]

/-- A register outside the row of R22 has no influence (R22). -/
theorem exec_setReg {i : Instr} {r : Reg} (h : r ∉ readsRegs i) (s : State) (v : Word) :
    exec i (s.setReg r v) = onNext (fun t => if r ∈ writesRegs i then t else t.setReg r v) (exec i s) := by
  refine exec_onNext ⟨fun q hq => State.setReg_reg_ne s v (by rintro rfl; exact h hq), rfl, fun _ => rfl,
    fun _ _ => rfl, takenJump_setReg i s r v⟩ fun _ hu => ?_
  cases hu with
  | jump _ hj => rw [writesRegs_of_jump hj]; rfl
  | reg _ row _ => rw [row]; exact State.setReg_setReg s r _ v _
  | store _ _ _ _ => rfl
  | push _ _ _ _ => rfl
  | pop q w sp => exact State.setReg_setReg (s.setSp sp) r q v w

/-! ### The host's accesses (R45, R47) -/

/-- Every write that the host's port takes. -/
theorem hostWrite_cases {e : Element} {v : HostValue} {s t : State} (h : hostWrite e v s = some t) :
    (∃ r w, e = .reg r ∧ v = .word w ∧ t = s.setReg r w) ∨
    (∃ w, e = .sp ∧ v = .word w ∧ t = s.setSp w) ∨
    (∃ w, e = .pc ∧ v = .word w ∧ t = s.setPc w) ∨
    (∃ b, e = .zf ∧ v = .flag b ∧ t = s.setZf b) ∨
    (∃ a w, e = .mem a ∧ v = .word w ∧ a.toNat < s.cap ∧ t = s.memWrite a w) := by
  unfold hostWrite at h
  split at h
  · exact .inl ⟨_, _, rfl, rfl, (Option.some.inj h).symm⟩
  · exact .inr (.inl ⟨_, rfl, rfl, (Option.some.inj h).symm⟩)
  · exact .inr (.inr (.inl ⟨_, rfl, rfl, (Option.some.inj h).symm⟩))
  · exact .inr (.inr (.inr (.inl ⟨_, rfl, rfl, (Option.some.inj h).symm⟩)))
  · split at h
    · rename_i ha
      exact .inr (.inr (.inr (.inr ⟨_, _, rfl, rfl, inBounds_iff.1 ha, (Option.some.inj h).symm⟩)))
    · cases h
  · cases h

theorem hostWrite_mem {a : Word} {s : State} (w : Word) (h : a.toNat < s.cap) :
    hostWrite (.mem a) (.word w) s = some (s.memWrite a w) := if_pos (inBounds_iff.2 h)

theorem hostRead_mem {a : Word} {s : State} (h : a.toNat < s.cap) :
    hostRead (.mem a) s = some (.word (s.memRead a)) := if_pos (inBounds_iff.2 h)

theorem hostRead_mem_outside {a : Word} {s : State} (h : s.cap ≤ a.toNat) : hostRead (.mem a) s = none :=
  if_neg (not_inBounds_iff.2 h)

theorem hostWrite_cfg {e : Element} {v : HostValue} {s t : State} (h : hostWrite e v s = some t) :
    t.cfg = s.cfg := by
  rcases hostWrite_cases h with ⟨_, _, -, -, rfl⟩ | ⟨_, -, -, rfl⟩ | ⟨_, -, -, rfl⟩ | ⟨_, -, -, rfl⟩ |
    ⟨_, _, -, -, -, rfl⟩ <;> rfl

theorem hostRead_hostWrite_same {e : Element} {v : HostValue} {s t : State} (h : hostWrite e v s = some t) :
    hostRead e t = some v := by
  rcases hostWrite_cases h with ⟨r, w, rfl, rfl, rfl⟩ | ⟨_, rfl, rfl, rfl⟩ | ⟨_, rfl, rfl, rfl⟩ |
    ⟨_, rfl, rfl, rfl⟩ | ⟨a, w, rfl, rfl, ha, rfl⟩
  · simp only [hostRead, State.setReg_reg_same]
  · rfl -- `sp`
  · rfl -- `pc`
  · rfl -- `zf`
  · rw [hostRead_mem (by exact ha), State.memWrite_memRead_same]

theorem hostRead_hostWrite_ne {e e' : Element} {v : HostValue} {s t : State} (h : hostWrite e v s = some t)
    (hne : e' ≠ e) : hostRead e' t = hostRead e' s := by
  rcases hostWrite_cases h with ⟨r, w, rfl, rfl, rfl⟩ | ⟨_, rfl, rfl, rfl⟩ | ⟨_, rfl, rfl, rfl⟩ |
    ⟨_, rfl, rfl, rfl⟩ | ⟨a, w, rfl, rfl, ha, rfl⟩
  · cases e' with
    | reg q => simp only [hostRead, State.setReg_reg_ne s w (fun hq => hne (congrArg _ hq))]
    | _ => rfl
  · cases e' with
    | sp => exact absurd rfl hne
    | _ => rfl
  · cases e' with
    | pc => exact absurd rfl hne
    | _ => rfl
  · cases e' with
    | zf => exact absurd rfl hne
    | _ => rfl
  · cases e' with
    | mem b => simp only [hostRead, inBounds_memWrite, State.memWrite_memRead_ne s w (fun hb => hne (congrArg _ hb))]
    | _ => rfl

/-- A host write keeps a state legal: a memory word is written below `CAP` only. -/
theorem hostWrite_keeps_legal {e : Element} {v : HostValue} {s t : State} (hs : Legal s)
    (h : hostWrite e v s = some t) : Legal t := by
  rcases hostWrite_cases h with ⟨_, _, -, -, rfl⟩ | ⟨_, -, -, rfl⟩ | ⟨_, -, -, rfl⟩ | ⟨_, -, -, rfl⟩ |
    ⟨a, w, -, -, ha, rfl⟩
  · exact legal_of_same_mem hs rfl rfl -- a register
  · exact legal_of_same_mem hs rfl rfl -- `sp`
  · exact legal_of_same_mem hs rfl rfl -- `pc`
  · exact legal_of_same_mem hs rfl rfl -- `zf`
  · exact memWrite_legal hs ha w

/-- A host write of another element leaves `sp`. -/
theorem hostWrite_sp {e : Element} {v : HostValue} {s t : State} (h : hostWrite e v s = some t) (he : e ≠ .sp) :
    t.sp = s.sp := by
  simpa [hostRead] using hostRead_hostWrite_ne h he.symm

/-- A host write of another element leaves `zf`. -/
theorem hostWrite_zf {e : Element} {v : HostValue} {s t : State} (h : hostWrite e v s = some t) (he : e ≠ .zf) :
    t.zf = s.zf := by
  simpa [hostRead] using hostRead_hostWrite_ne h he.symm

/-! ### Other parameters beside the same state vector (R6, R47) -/

/-- The program is no element of the state vector: beside another program and the same capacity, all reads are the
same. -/
theorem hostRead_withCfg {s : State} {c : Config} (hcap : c.memCapacity = s.cap) (e : Element) :
    hostRead e { s with cfg := c } = hostRead e s := by
  cases e with
  | mem a => simp only [hostRead, inBounds, State.cap, hcap]; rfl
  | _ => rfl

theorem legal_withCfg {s : State} {c : Config} (hs : Legal s) (hc : c.wf = true) (hcap : c.memCapacity = s.cap) :
    Legal { s with cfg := c } := by
  obtain ⟨-, hwf, hbounds⟩ := hs
  exact ⟨hc, hwf, fun d hd => (hbounds d hd).trans_eq hcap.symm⟩

theorem loadProgram_eq_some_iff {p : List InstrWord} {s t : State} :
    loadProgram p s = some t ↔ p.length ≤ 65536 ∧ { s with cfg := { s.cfg with prog := p } } = t := by
  simp [loadProgram]

/-! ### Every interaction (R47) -/

/-- A transaction leaves the state it began in, or it completed. -/
theorem stateAfter_cases (s : State) (o : Outcome) : stateAfter s o = s ∨ o = .next (stateAfter s o) := by
  cases o with
  | next _ => exact .inr rfl
  | fault _ => exact .inl rfl
  | refused _ => exact .inl rfl

theorem accepted_cases (s : State) (o : Option State) : (accepted s o).2 = s ∨ o = some (accepted s o).2 := by
  cases o with
  | some _ => exact .inr rfl
  | none => exact .inl rfl

/-- Every way in which an interaction can leave another state. -/
theorem interact_cases (s : State) (x : Interaction) :
    (interact s x).2 = s ∨
    (x = .reset ∧ (interact s x).2 = resetInput s) ∨
    (∃ p, x = .loadProgram p ∧ loadProgram p s = some (interact s x).2) ∨
    (∃ e v, x = .write e v ∧ hostWrite e v s = some (interact s x).2) ∨
    (∃ i, x = .step i ∧ exec i s = .next (interact s x).2) ∨
    (x = .cycle ∧ step s = .next (interact s x).2) := by
  cases x with
  | reset => exact .inr (.inl ⟨rfl, rfl⟩)
  | loadProgram p => exact (accepted_cases s _).imp_right fun h => .inr (.inl ⟨p, rfl, h⟩)
  | read e => exact .inl rfl
  | write e v => exact (accepted_cases s _).imp_right fun h => .inr (.inr (.inl ⟨e, v, rfl, h⟩))
  | step i => exact (stateAfter_cases s _).imp_right fun h => .inr (.inr (.inr (.inl ⟨i, rfl, h⟩)))
  | cycle => exact (stateAfter_cases s _).imp_right fun h => .inr (.inr (.inr (.inr ⟨rfl, h⟩)))

theorem step_keeps_legal {s t : State} (hs : Legal s) (h : step s = .next t) : Legal t := by
  obtain ⟨_, _, -, -, hexec⟩ := step_next_cases h
  exact exec_keeps_legal (s := s.setPc (s.pc + 1)) hs hexec

theorem step_keeps_stack {s t : State} (hs : StackWithinCapacity s) (h : step s = .next t) :
    StackWithinCapacity t := by
  obtain ⟨_, _, -, -, hexec⟩ := step_next_cases h
  exact exec_keeps_stack (s := s.setPc (s.pc + 1)) hs hexec

/-- The bound on `sp` is a matter of `sp` and the capacity alone. -/
theorem stackWithinCapacity_of_same_sp {s t : State} (hs : StackWithinCapacity s) (hsp : t.sp = s.sp)
    (hcap : t.cap = s.cap) : StackWithinCapacity t := by
  simpa only [StackWithinCapacity, hsp, hcap] using hs

theorem initial_stackWithinCapacity (c : Config) : StackWithinCapacity (State.initial c) := Nat.zero_le _

theorem interact_keeps_legal {s : State} (x : Interaction) (hs : Legal s) : Legal (interact s x).2 := by
  rcases interact_cases s x with same | ⟨-, h⟩ | ⟨p, -, h⟩ | ⟨_, _, -, h⟩ | ⟨_, -, h⟩ | ⟨-, h⟩
  · rw [same]; exact hs
  · rw [h]; exact (initial_inv hs.1).1
  · obtain ⟨hp, h⟩ := loadProgram_eq_some_iff.1 h
    rw [← h]
    exact legal_withCfg hs (Config.wf_iff.2 ⟨(Config.wf_iff.1 hs.1).1, hp⟩) rfl
  · exact hostWrite_keeps_legal hs h
  · exact exec_keeps_legal hs h
  · exact step_keeps_legal hs h

theorem interact_keeps_stack {s : State} {x : Interaction} (hs : StackWithinCapacity s)
    (noWrite : ∀ v, x ≠ .write .sp v) : StackWithinCapacity (interact s x).2 := by
  rcases interact_cases s x with same | ⟨-, h⟩ | ⟨p, -, h⟩ | ⟨e, v, rfl, h⟩ | ⟨_, -, h⟩ | ⟨-, h⟩
  · rw [same]; exact hs
  · rw [h]; exact initial_stackWithinCapacity s.cfg
  · obtain ⟨-, h⟩ := loadProgram_eq_some_iff.1 h
    rw [← h]; exact hs
  · have other : e ≠ .sp := by rintro rfl; exact noWrite v rfl
    exact stackWithinCapacity_of_same_sp hs (hostWrite_sp h other) (congrArg Config.memCapacity (hostWrite_cfg h))
  · exact exec_keeps_stack hs h
  · exact step_keeps_stack hs h

/-- Of the interactions, only a reset and a write of the flag can change it (R32). -/
theorem interact_zf_cases {s : State} {x : Interaction} (h : (interact s x).2.zf ≠ s.zf) :
    x = .reset ∨ ∃ b, x = .write .zf (.flag b) := by
  rcases interact_cases s x with same | ⟨hx, -⟩ | ⟨p, -, hp⟩ | ⟨e, v, rfl, hw⟩ | ⟨_, -, hi⟩ | ⟨-, hc⟩
  · exact absurd (congrArg State.zf same) h
  · exact .inl hx
  · obtain ⟨-, hp⟩ := loadProgram_eq_some_iff.1 hp
    exact absurd (congrArg State.zf hp).symm h
  · by_cases he : e = .zf
    · subst he
      cases v with
      | flag b => exact .inr ⟨b, rfl⟩
      | word w => cases hw
    · exact absurd (hostWrite_zf hw he) h
  · exact absurd (exec_zf hi) h
  · exact absurd (step_zf hc) h

/-! ### The snapshot (R46, D13) -/

theorem snapshot_length (s : State) : (snapshot s).length = 11 + s.cap := by
  simp [snapshot, snapshotElements]; omega

theorem snapshot_reg (s : State) (r : Reg) : (snapshot s)[r.val]? = some (s.reg r) := by
  fin_cases r <;> rfl

/-- Behind the eleven other entries stand the memory words, from address 0 up. -/
theorem snapshot_mem (s : State) {a : Nat} (h : a < s.cap) :
    (snapshot s)[11 + a]? = some (s.memRead (BitVec.ofNat 16 a)) := by
  rw [snapshot, snapshotElements, List.getElem?_map, List.getElem?_append_right (Nat.le_add_right 11 a)]
  simp [h, elementWord]

/-- A snapshot holds every element that the host can read. -/
theorem mem_snapshotElements {s : State} (hcap : s.cap ≤ 65536) {e : Element} :
    e ∈ snapshotElements s.cap ↔ hostRead e s ≠ none := by
  cases e with
  | reg r => fin_cases r <;> simp [snapshotElements, hostRead]
  | sp => simp [snapshotElements, hostRead]
  | pc => simp [snapshotElements, hostRead]
  | zf => simp [snapshotElements, hostRead]
  | mem a =>
    have listed : Element.mem a ∈ snapshotElements s.cap ↔ a.toNat < s.cap := by
      simp only [snapshotElements, List.mem_append, List.mem_map, List.mem_range, Element.mem.injEq]
      constructor
      · rintro (h | ⟨n, hn, rfl⟩)
        · simp at h
        · rwa [BitVec.toNat_ofNat, Nat.mod_eq_of_lt (by omega)]
      · intro h
        exact .inr ⟨a.toNat, h, BitVec.ofNat_toNat ..⟩
    rw [listed, hostRead]
    simp [inBounds_iff]

theorem entryValue_flag (b : Bool) : entryValue .zf (HostValue.flag b).toWord = some (.flag b) := by
  cases b <;> rfl

/-- An entry of a snapshot stands for the value that the host reads. -/
theorem entryValue_elementWord {e : Element} {s : State} {v : HostValue} (h : hostRead e s = some v) :
    entryValue e (elementWord s e) = some v := by
  cases e with
  | zf => exact (entryValue_flag s.zf).trans h
  | mem a =>
    rw [hostRead] at h
    split at h
    · exact h
    · cases h
  | _ => exact h

/-- Where an element reads in one machine, its value can be written in any machine of the same capacity. -/
theorem hostWrite_of_hostRead {e : Element} {s u : State} {v : HostValue} (h : hostRead e s = some v)
    (hcap : u.cap = s.cap) : ∃ t, hostWrite e v u = some t := by
  cases e with
  | mem a =>
    rcases Nat.lt_or_ge a.toNat s.cap with ha | ha
    · rw [hostRead_mem ha] at h
      cases h
      exact ⟨_, hostWrite_mem _ (hcap ▸ ha)⟩
    · rw [hostRead_mem_outside ha] at h; cases h
  | _ => cases h; exact ⟨_, rfl⟩

/-- Writing entries of a snapshot of `s` gives the listed elements their values in `s` and leaves the others. -/
theorem writeEntries_elements {s : State} (l : List Element) (hl : ∀ e ∈ l, hostRead e s ≠ none) {u : State}
    (hu : Legal u) (hcap : u.cap = s.cap) :
    ∃ t, writeEntries (l.map fun e => (e, elementWord s e)) u = some t ∧ Legal t ∧ t.cfg = u.cfg ∧
      ∀ e, hostRead e t = if e ∈ l then hostRead e s else hostRead e u := by
  induction l generalizing u with
  | nil => exact ⟨u, rfl, hu, rfl, fun e => by simp⟩
  | cons e l ih =>
    obtain ⟨readable, rest⟩ := List.forall_mem_cons.1 hl
    obtain ⟨v, hv⟩ := Option.ne_none_iff_exists'.1 readable
    obtain ⟨w, hw⟩ := hostWrite_of_hostRead hv hcap
    have hcfg := hostWrite_cfg hw
    obtain ⟨t, ht, legal, cfg, reads⟩ :=
      ih rest (hostWrite_keeps_legal hu hw) ((congrArg Config.memCapacity hcfg).trans hcap)
    refine ⟨t, ?_, legal, cfg.trans hcfg, fun e' => ?_⟩
    · simp only [List.map_cons, writeEntries, entryValue_elementWord hv, Option.bind_some, hw, ht]
    · rw [reads e']
      by_cases he : e' = e
      · subst he; simp [hostRead_hostWrite_same hw, hv]
      · simp [he, hostRead_hostWrite_ne hw he]

/-- A legal memory is determined by its words below the capacity: above it nothing is listed. -/
theorem Memory.eq_of_reads_below {m n : Memory} {cap : Nat} (hm : Memory.wf m) (hn : Memory.wf n)
    (mBelow : ∀ c ∈ m, c.1 < cap) (nBelow : ∀ c ∈ n, c.1 < cap)
    (h : ∀ a, a < cap → Memory.read m a = Memory.read n a) : m = n := by
  refine Memory.ext_of_reads hm hn fun a => ?_
  rcases Nat.lt_or_ge a cap with ha | ha
  · exact h a ha
  · rw [Memory.read_of_not_listed fun c hc => Nat.ne_of_lt (Nat.lt_of_lt_of_le (mBelow c hc) ha),
      Memory.read_of_not_listed fun c hc => Nat.ne_of_lt (Nat.lt_of_lt_of_le (nBelow c hc) ha)]

/-- Legal states with the same parameters are equal when the host reads the same in both. -/
theorem State.ext_of_hostRead {s t : State} (hs : Legal s) (ht : Legal t) (hc : t.cfg = s.cfg)
    (h : ∀ e, hostRead e t = hostRead e s) : t = s := by
  have hcap : t.cap = s.cap := congrArg Config.memCapacity hc
  have small := (Config.wf_iff.1 hs.1).1
  refine State.ext_of_elements (fun q => by simpa [hostRead] using h (.reg q)) (by simpa [hostRead] using h .sp)
    (by simpa [hostRead] using h .pc) (by simpa [hostRead] using h .zf) ?_ hc
  refine Memory.eq_of_reads_below (cap := s.cap) ht.2.1 hs.2.1 (hcap ▸ ht.2.2) hs.2.2 fun a ha => ?_
  have hn : (BitVec.ofNat 16 a).toNat = a := by
    rw [BitVec.toNat_ofNat]; exact Nat.mod_eq_of_lt (by unfold State.cap at ha; omega)
  have hr := h (.mem (BitVec.ofNat 16 a))
  rw [hostRead_mem (by rwa [hn, hcap]), hostRead_mem (by rwa [hn])] at hr
  simpa [State.memRead, hn] using hr

/-- A legal state's snapshot restores that state into a legal machine of the same capacity, with the machine's own
program. -/
theorem restore_snapshot {s u : State} (hs : Legal s) (hu : Legal u) (hcap : u.cap = s.cap) :
    restore (snapshot s) u = some { s with cfg := u.cfg } := by
  have small : s.cap ≤ 65536 := Nat.le_succ_of_le (Config.wf_iff.1 hs.1).1
  have readable : ∀ e ∈ snapshotElements s.cap, hostRead e s ≠ none := fun e he => (mem_snapshotElements small).1 he
  obtain ⟨t, ht, legal, cfg, reads⟩ := writeEntries_elements _ readable hu hcap
  have entries : (snapshotElements u.cap).zip (snapshot s) =
      (snapshotElements s.cap).map fun e => (e, elementWord s e) := by
    rw [hcap, snapshot]
    simpa using List.zip_map' (f := id) (g := elementWord s) (l := snapshotElements s.cap)
  rw [restore, if_pos (by rw [snapshot_length, hcap]), entries, ht]
  refine congrArg some (State.ext_of_hostRead (legal_withCfg hs hu.1 hcap) legal cfg fun e => ?_)
  rw [reads e, hostRead_withCfg hcap]
  by_cases he : e ∈ snapshotElements s.cap
  · rw [if_pos he]
  · have unread {x : State} (hx : x.cap = s.cap) : hostRead e x = none :=
      not_not.1 (mt (mem_snapshotElements (hx ▸ small)).2 (hx ▸ he))
    rw [if_neg he, unread hcap, unread rfl]

theorem bytesWord_wordBytes (o : ByteOrder) (w : Word) : ∃ a b, wordBytes o w = [a, b] ∧ bytesWord o a b = w := by
  have halves : w.extractLsb' 8 8 ++ w.extractLsb' 0 8 = w := by
    refine BitVec.eq_of_toNat_eq ?_
    rw [append_toNat, BitVec.extractLsb'_toNat, BitVec.extractLsb'_toNat, Nat.shiftRight_eq_div_pow]
    have := w.isLt
    omega
  cases o with
  | littleEndian => exact ⟨_, _, rfl, halves⟩
  | bigEndian => exact ⟨_, _, rfl, halves⟩

theorem deserialise_serialise (o : ByteOrder) (ws : List Word) : deserialise o (serialise o ws) = some ws := by
  induction ws with
  | nil => rfl
  | cons w ws ih =>
    obtain ⟨a, b, hbytes, hword⟩ := bytesWord_wordBytes o w
    have : serialise o (w :: ws) = a :: b :: serialise o ws := by simp [serialise, hbytes]
    rw [this, deserialise, ih, Option.map_some, hword]

theorem restoreBytes_snapshotBytes (s u : State) : restoreBytes (snapshotBytes s) u = restore (snapshot s) u := by
  rw [restoreBytes, snapshotBytes, deserialise_serialise, Option.bind_some]

theorem length_of_restore {ws : List Word} {u t : State} (h : restore ws u = some t) : ws.length = 11 + u.cap := by
  by_contra hne
  rw [restore, if_neg hne] at h
  cases h

/-! ### The registers of a row are written and read (R22) -/

/-- A legal state in which the rows of R22 show: every register holds 2, `sp` is 1, and memory holds 5, 0, 0, 0. -/
def sample : State :=
  { regs := Vector.replicate 8 2, sp := 1, pc := 0, zf := false, mem := [(0, 5)],
    cfg := { memCapacity := 4, prog := [] } }

theorem sample_inv : Inv sample := by decide

@[simp] theorem sample_reg (q : Reg) : sample.reg q = 2 := by revert q; decide

theorem State.setReg_memWrite_memRead (s : State) (r : Reg) (x a v b : Word) :
    ((s.setReg r x).memWrite a v).memRead b = (s.memWrite a v).memRead b := rfl

theorem exec_mov_self (r : Reg) (s : State) : exec (.mov r r) s = .next s := by
  rw [exec_mov, State.setReg_self]

theorem exec_sub_self (r : Reg) (s : State) : exec (.sub r r) s = .next (s.setReg r 0) := by
  rw [exec_sub, sub16_eq, BitVec.sub_self]; rfl

/-- A register write of another value shows. -/
theorem write_shows {i : Instr} {r : Reg} {v : Word} {s t : State} (hs : Inv s) (h : exec i s = .next (t.setReg r v))
    (hv : v ≠ s.reg r) : ∃ s t, Inv s ∧ exec i s = .next t ∧ t.reg r ≠ s.reg r :=
  ⟨s, _, hs, h, by rwa [State.setReg_reg_same]⟩

/-- `sample` shows every register write, but that of a Mov, which shows where the two registers differ. -/
theorem writesRegs_shows {i : Instr} {r : Reg} (hr : r ∈ writesRegs i) :
    (∃ q, i = .mov q q ∧ ∀ s, exec i s = .next s) ∨
      ∃ s t, Inv s ∧ exec i s = .next t ∧ t.reg r ≠ s.reg r := by
  cases i with
  | mov r1 r2 =>
    obtain rfl := List.mem_singleton.1 hr
    by_cases same : r = r2
    · subst same
      exact .inl ⟨r, rfl, exec_mov_self r⟩
    · have hs : Inv (sample.setReg r2 3) := sample_inv
      exact .inr (write_shows hs (exec_mov r r2 _) (by simp [same]))
  | add r1 r2 =>
    obtain rfl := List.mem_singleton.1 hr
    exact .inr (write_shows sample_inv (exec_add r r2 sample) (by simp only [sample_reg]; decide))
  | sub r1 r2 =>
    obtain rfl := List.mem_singleton.1 hr
    exact .inr (write_shows sample_inv (exec_sub r r2 sample) (by simp only [sample_reg]; decide))
  | mul r1 r2 =>
    obtain rfl := List.mem_singleton.1 hr
    exact .inr (write_shows sample_inv (exec_mul r r2 sample) (by simp only [sample_reg]; decide))
  | div r1 r2 =>
    obtain rfl := List.mem_singleton.1 hr
    exact .inr (write_shows sample_inv (exec_div r (by simp)) (by simp only [sample_reg]; decide))
  | load dstReg addrReg =>
    obtain rfl := List.mem_singleton.1 hr
    exact .inr (write_shows sample_inv (exec_load r (by rw [sample_reg]; decide)) (by simp only [sample_reg]; decide))
  | pop r =>
    obtain rfl := List.mem_singleton.1 hr
    exact .inr (write_shows sample_inv (exec_pop r (by decide) (by decide)) (by rw [sample_reg]; decide))
  | _ => cases hr

/-- A changed register shows where the two runs leave another value in a register of the row or in memory. -/
theorem read_shows {i : Instr} {r : Reg} {v : Word} {s t t' : State} (h : exec i s = .next t)
    (h' : exec i (s.setReg r v) = .next t')
    (differ : (∃ q ∈ writesRegs i, t'.reg q ≠ t.reg q) ∨ ∃ a, t'.memRead a ≠ t.memRead a) :
    exec i (s.setReg r v) ≠ onNext (fun t => if r ∈ writesRegs i then t else t.setReg r v) (exec i s) := by
  rw [h, h']
  intro same
  obtain rfl := Host.Outcome.next.inj same
  rcases differ with ⟨q, hq, hne⟩ | ⟨a, hne⟩
  · split at hne
    · exact hne rfl
    · rename_i outside
      exact hne (State.setReg_reg_ne t v (by rintro rfl; exact outside hq))
  · split at hne <;> exact hne rfl

/-- The two operands in `sample` after one of them is cleared. -/
theorem sample_operands {r r1 r2 : Reg} (hr : r ∈ [r1, r2]) :
    (r1 = r2 ∧ (sample.setReg r 0).reg r1 = 0 ∧ (sample.setReg r 0).reg r2 = 0) ∨
    ((sample.setReg r 0).reg r1 = 0 ∧ (sample.setReg r 0).reg r2 = 2) ∨
    ((sample.setReg r 0).reg r1 = 2 ∧ (sample.setReg r 0).reg r2 = 0) := by
  by_cases same : r1 = r2
  · obtain rfl : r = r1 := by simpa [same] using hr
    exact .inl ⟨same, by simp [← same]⟩
  · rcases List.mem_pair.1 hr with rfl | rfl
    · exact .inr (.inl (by simp [Ne.symm same]))
    · exact .inr (.inr (by simp [same]))

/-- An operation of two registers whose result in `sample` changes when an operand is cleared. -/
theorem operation_reads {i : Instr} {r r1 r2 : Reg} {op : Word → Word → Word}
    (hexec : ∀ s, exec i s = .next (s.setReg r1 (op (s.reg r1) (s.reg r2)))) (row : writesRegs i = [r1])
    (hr : r ∈ [r1, r2]) (both : r1 = r2 → op 0 0 ≠ op 2 2) (first : op 0 2 ≠ op 2 2) (second : op 2 0 ≠ op 2 2) :
    exec i (sample.setReg r 0) ≠
      onNext (fun t => if r ∈ writesRegs i then t else t.setReg r 0) (exec i sample) := by
  refine read_shows (hexec _) (hexec _) (.inl ⟨r1, by simp [row], ?_⟩)
  rw [State.setReg_reg_same, State.setReg_reg_same, sample_reg, sample_reg]
  rcases sample_operands hr with ⟨same, h1, h2⟩ | ⟨h1, h2⟩ | ⟨h1, h2⟩ <;> rw [h1, h2]
  · exact both same
  · exact first
  · exact second

/-- Clearing a register that `sample` shows to be read. -/
theorem readsRegs_shows {i : Instr} {r : Reg} (hr : r ∈ readsRegs i) (notSubSelf : ∀ q, i ≠ .sub q q) :
    exec i (sample.setReg r 0) ≠
      onNext (fun t => if r ∈ writesRegs i then t else t.setReg r 0) (exec i sample) := by
  cases i with
  | add r1 r2 => exact operation_reads (exec_add r1 r2) rfl hr (fun _ => by decide) (by decide) (by decide)
  | mul r1 r2 => exact operation_reads (exec_mul r1 r2) rfl hr (fun _ => by decide) (by decide) (by decide)
  | sub r1 r2 =>
    have other : r1 ≠ r2 := by rintro rfl; exact notSubSelf r1 rfl
    exact operation_reads (exec_sub r1 r2) rfl hr (absurd · other) (by decide) (by decide)
  | div r1 r2 =>
    have completes := exec_div (s := sample) (r2 := r2) r1 (by simp)
    rcases sample_operands hr with ⟨-, -, h2⟩ | ⟨h1, h2⟩ | ⟨-, h2⟩
    · rw [exec_div_by_zero r1 h2, completes]; simp [onNext]
    · refine read_shows completes (exec_div r1 (by rw [h2]; decide)) (.inl ⟨r1, by simp [writesRegs], ?_⟩)
      simp only [State.setReg_reg_same, h1, h2, sample_reg]; decide
    · rw [exec_div_by_zero r1 h2, completes]; simp [onNext]
  | mov r1 r2 =>
    obtain rfl := List.mem_singleton.1 hr
    refine read_shows (exec_mov r1 r sample) (exec_mov r1 r _) (.inl ⟨r1, by simp [writesRegs], ?_⟩)
    simp only [State.setReg_reg_same, sample_reg]; decide
  | load dstReg addrReg =>
    obtain rfl := List.mem_singleton.1 hr
    refine read_shows (exec_load dstReg (by rw [sample_reg]; decide))
      (exec_load dstReg (by rw [State.setReg_reg_same, State.setReg_cap]; decide))
      (.inl ⟨dstReg, by simp [writesRegs], ?_⟩)
    simp only [State.setReg_reg_same, State.setReg_memRead, sample_reg]; decide
  | push r' =>
    obtain rfl := List.mem_singleton.1 hr
    have below : sample.sp.toNat < sample.cap := by decide
    refine read_shows (exec_push r below) (exec_push r below) (.inr ⟨sample.sp, ?_⟩)
    simp only [State.setSp_memRead, State.setReg_sp, State.memWrite_memRead_same, State.setReg_reg_same, sample_reg]
    decide
  | store addrReg valReg =>
    have completes := exec_store (s := sample) (addrReg := addrReg) valReg (by rw [sample_reg]; decide)
    have below : ((sample.setReg r 0).reg addrReg).toNat < sample.cap := by
      rcases sample_operands hr with ⟨-, h1, -⟩ | ⟨h1, -⟩ | ⟨h1, -⟩ <;> rw [h1] <;> decide
    refine read_shows completes (exec_store valReg below) (.inr ⟨2, ?_⟩)
    rw [sample_reg, sample_reg, State.memWrite_memRead_same, State.setReg_memWrite_memRead]
    rcases sample_operands hr with ⟨-, h1, h2⟩ | ⟨h1, h2⟩ | ⟨h1, h2⟩ <;> rw [h1, h2] <;> decide
  | _ => cases hr

end Sys2Proof.Machine

namespace Sys2Proof.Proofs

open Sys2Proof.Machine Sys2Proof.Safety

/-- Settles O40: it holds. No cycle writes the flag, so every reachable state has it clear, and there the conditions of
the four jumps are decided. -/
theorem zeroFlagStaysClearWithoutHostWrites : Obligations.ZeroFlagStaysClearWithoutHostWrites := by
  refine ⟨State.initial_zf, fun c n t h => ?_, fun _ _ => interact_zf_cases⟩
  have clear : t.zf = false :=
    run_keeps (P := fun s => s.zf = false) (fun _ _ hs hstep => (step_zf hstep).trans hs) (State.initial_zf c) h
  have notSet : ¬ t.zf = true := by simp [clear]
  exact ⟨clear, fun x => ⟨exec_notTakenJump rfl (if_neg notSet),
    exec_notTakenJump (i := .jmpZRel x) rfl (if_neg notSet),
    exec_takenJump rfl (if_pos clear), exec_takenJump (i := .jmpNZRel x) rfl (if_pos clear)⟩⟩

/-- Settles O50: it holds, by the inversion of an interaction. -/
theorem everyInteractionKeepsLegality : Obligations.EveryInteractionKeepsLegality :=
  fun _ x hs => ⟨interact_keeps_legal x hs, interact_keeps_stack⟩

/-- Settles O23: it holds. A conditional jump's `pc` is read off its target. -/
theorem zeroFlagIsReadAndNeverWritten : Obligations.ZeroFlagIsReadAndNeverWritten := by
  refine ⟨fun _ _ _ => exec_zf, fun _ s b h => exec_setZf h s b, fun addr s t h => ?_, fun off s t h => ?_,
    fun addr s t h => ?_, fun off s t h => ?_⟩
  all_goals exact (exec_pc h).trans (apply_ite (Option.getD · s.pc) _ _ _)

/-- Settles O24: it holds. -/
theorem pcWrittenOnlyByTakenJumps : Obligations.PcWrittenOnlyByTakenJumps :=
  fun _ s _ h => ⟨exec_pc h, fun notJump => takenJump_of_not_jump notJump s⟩

/-- Settles O25: it holds. A register outside the row is not among those that the instruction's updates write, and its
value reaches none of them. -/
theorem registersReadAndWrittenByTable : Obligations.RegistersReadAndWrittenByTable :=
  ⟨fun _ _ _ _ => exec_reg_of_notMem, fun _ s _ v h => exec_setReg h s v⟩

/-- Settles O26: it holds. -/
theorem stackPointerUsedOnlyByPushAndPop : Obligations.StackPointerUsedOnlyByPushAndPop :=
  fun _ s h => ⟨fun _ => exec_sp h, exec_setSp h s⟩

/-- Settles O28: it holds. The host breaks the bound by writing 65535 to `sp`. -/
theorem stackInvariantKept : Obligations.StackInvariantKept := by
  refine ⟨initial_stackWithinCapacity, fun _ _ _ => exec_keeps_stack, fun s h => ⟨0xFFFF, _, rfl, Nat.not_le.2 h⟩,
    fun s r broken => ?_⟩
  have above : s.cap < s.sp.toNat := Nat.lt_of_not_le broken
  have nonzero : s.sp ≠ 0 := fun h => by rw [h] at above; exact absurd above (Nat.not_lt_zero _)
  exact ⟨exec_push_overflow r above.le, exec_pop_outside r nonzero (Nat.le_sub_one_of_lt above)⟩

/-- Settles O35: it holds. -/
theorem cycleTransaction : Obligations.CycleTransaction := by
  refine fun s => ⟨fun h => cycle_of_fault (step_of_end h), fun w hw => ⟨fun e he => ?_, fun i hi => ?_⟩⟩
  · exact cycle_of_fault (step_of_illegal hw he)
  · have hstep := step_of_decoded hw hi
    refine ⟨fun f hf => cycle_of_fault (hstep.trans hf), fun t ht => cycle_of_next (hstep.trans ht), ?_, ?_⟩
    · rintro off rfl
      rw [cycle_of_next (hstep.trans (exec_jump rfl _))]; rfl
    · rintro addr rfl
      rw [cycle_of_next (hstep.trans (exec_jump rfl _))]; rfl

/-- Settles O36: it holds. A state outside the program is a fixed point of the cycle. -/
theorem cycleEndsOutsideProgram : Obligations.CycleEndsOutsideProgram := by
  refine fun s => ⟨cycle_ended_iff, fun outside n => ?_⟩
  have fixed : (cycle s).2 = s := congrArg Prod.snd (cycle_of_fault (step_of_end outside))
  rw [Function.iterate_fixed (f := fun u => (cycle u).2) fixed n]
  exact ⟨rfl, cycle_ended_iff.2 outside⟩

/-- Settles O38: it holds, from the instruction's `pc` in the state that the cycle has advanced. -/
theorem cycleAdvancesPcOrJumps : Obligations.CycleAdvancesPcOrJumps := by
  intro s t w i hw hi h
  have hpc : t.pc = (takenJump i (s.setPc (s.pc + 1))).getD (s.pc + 1) := exec_pc (step_of_decoded hw hi ▸ h)
  refine ⟨hpc, fun notJump => ?_⟩
  rw [hpc, takenJump_of_not_jump notJump, Option.getD_none, BitVec.toNat_add, one_toNat]

/-- Settles O44: it holds. -/
theorem hostReadsBackWhatItWrites : Obligations.HostReadsBackWhatItWrites := by
  refine ⟨fun _ _ => rfl, fun _ => ⟨rfl, rfl, rfl⟩, fun _ _ => hostRead_mem, fun _ _ => rfl,
    fun _ _ _ => ⟨rfl, rfl, rfl⟩, fun _ _ => rfl, fun s a v ha => by rw [hostWrite_mem v ha]; rfl, fun e v s t h => ?_⟩
  exact ⟨hostRead_hostWrite_same h, fun _ => hostRead_hostWrite_ne h, hostWrite_cfg h, by rw [interact, h]; rfl⟩

/-- Settles O46: it holds. -/
theorem snapshotLayout : Obligations.SnapshotLayout :=
  fun s => ⟨snapshot_length s, snapshot_reg s, rfl, rfl, rfl, fun _ => snapshot_mem s⟩

/-- Settles O47: it holds. Restoring writes every readable element, and those determine a legal
state. -/
theorem snapshotRestoresState : Obligations.SnapshotRestoresState := by
  refine ⟨fun s u hs hu hcap => ?_, deserialise_serialise, fun _ _ _ => length_of_restore⟩
  rw [restoreBytes_snapshotBytes]
  exact ⟨restore_snapshot hs hu hcap, restore_snapshot hs hu hcap⟩

/-- Settles O59: it holds. `sample`, with a register cleared, shows each row but Sub of a register from itself. -/
theorem registersOfTheRowAreWrittenAndRead : Obligations.RegistersOfTheRowAreWrittenAndRead := by
  refine ⟨fun _ _ => writesRegs_shows, fun i r hr => ?_⟩
  by_cases subSelf : ∃ q, i = .sub q q
  · obtain ⟨q, rfl⟩ := subSelf
    obtain rfl : r = q := by simpa [readsRegs] using hr
    exact .inl ⟨r, rfl, exec_sub_self r⟩
  · exact .inr ⟨sample, 0, sample_inv, readsRegs_shows hr (not_exists.1 subSelf)⟩

/-- Settles O1: it holds. -/
theorem constructionSetsEveryElement : Obligations.ConstructionSetsEveryElement :=
  fun capacity prog hcap hprog =>
    ⟨State.initial ⟨capacity, prog⟩, construct_eq_some_iff.2 ⟨Config.wf_iff.2 ⟨hcap, hprog⟩, rfl⟩,
      State.initial_reg _, rfl, rfl, rfl, State.initial_memRead _, rfl, rfl⟩

/-- Settles O20: it holds. -/
theorem stepPortIsAllOrNothing : Obligations.StepPortIsAllOrNothing := fun i s =>
  (exec_next_or_fault i s).imp (fun ⟨t, ht⟩ => ⟨t, ht, stepPort_of_next ht⟩)
    fun ⟨f, hf, _⟩ => ⟨f, hf, stepPort_of_fault hf⟩

/-- Settles O34: it holds. -/
theorem stepRunsDecodedInstruction : Obligations.StepRunsDecodedInstruction := fun _ _ _ => step_of_decoded

/-- Settles O37: it holds. A cycle that completes answers `Ok`, so one that answers a fault left its state. -/
theorem faultingCycleIsPrecise : Obligations.FaultingCycleIsPrecise := by
  intro s t r h fault
  rcases step_next_or_fault s with ⟨u, hu⟩ | ⟨f, hf⟩
  · cases (cycle_of_next hu).symm.trans h
    cases fault
  · obtain rfl : s = t := congrArg Prod.snd ((cycle_of_fault hf).symm.trans h)
    exact ⟨rfl, h, rfl⟩

/-- Settles O60: it holds. -/
theorem loadingReplacesTheProgramOnly : Obligations.LoadingReplacesTheProgramOnly := by
  intro s prog hprog
  have loaded := (loadProgram_eq_some_iff (s := s)).2 ⟨hprog, rfl⟩
  exact ⟨{ s with cfg := { s.cfg with prog := prog } }, by rw [interact, loaded]; rfl, rfl, rfl, hostRead_withCfg rfl,
    fun _ => rfl, fun _ => rfl, rfl, rfl, rfl, rfl⟩

end Sys2Proof.Proofs
end

section
/-! PROOFS. What reaches data memory and the program store, and where an access faults (the statements of
spec/20_memory.md). -/

namespace Sys2Proof.Machine

open Sys2Proof.Safety

/-! ### The fault table (R61, R200) -/

/-- Every cause that R200's table names raises its fault. -/
theorem exec_of_faultCause {i : Instr} {s : State} {f : Fault} (h : FaultCause i s f) : exec i s = .fault f := by
  cases i with
  | div r1 _ =>
    obtain ⟨rfl, zero⟩ := h
    exact exec_div_by_zero r1 (BitVec.eq_of_toNat_eq zero)
  | store _ valReg =>
    obtain ⟨rfl, outside⟩ := h
    exact exec_store_outside valReg outside
  | load dstReg _ =>
    obtain ⟨rfl, outside⟩ := h
    exact exec_load_outside dstReg outside
  | push r =>
    obtain ⟨rfl, outside⟩ := h
    exact exec_push_overflow r outside
  | pop r =>
    obtain ⟨rfl, zero⟩ | ⟨rfl, above⟩ := h
    · exact exec_pop_underflow r (BitVec.eq_of_toNat_eq zero)
    · have nonzero : s.sp ≠ 0 := fun e => by rw [e] at above; exact Nat.not_lt_zero _ above
      exact exec_pop_outside r nonzero (Nat.le_sub_one_of_lt above)
  | _ => cases h

theorem exec_eq_fault_iff {i : Instr} {s : State} {f : Fault} : exec i s = .fault f ↔ FaultCause i s f :=
  ⟨faultCause_of_exec, exec_of_faultCause⟩

/-! ### The words an instruction writes and depends on (R62) -/

/-- What an address reads as after a word of memory is written. -/
theorem State.memWrite_memRead (s : State) (a v b : Word) :
    (s.memWrite a v).memRead b = if b = a then v else s.memRead b := by
  split
  · next h => rw [h, State.memWrite_memRead_same]
  · next h => exact State.memWrite_memRead_ne s v h

/-- A Store whose address register holds `a` writes the word at `a`. -/
theorem exec_store_at {addrReg : Reg} {s : State} {a : Word} (valReg : Reg) (addr : indirect addrReg s = a)
    (h : a.toNat < s.cap) : exec (.store addrReg valReg) s = .next (s.memWrite a (s.reg valReg)) := by
  subst addr
  exact exec_store valReg h

/-- The address of the one word that an instruction can write: Store's register-indirect one, and Push's `sp`. -/
def writtenAddress : Instr → State → Option Word
  | .store addrReg _, s => some (indirect addrReg s)
  | .push _, s => some s.sp
  | _, _ => none

theorem writtenAddress_of_not_writesMemory {i : Instr} (h : writesMemory i = false) (s : State) :
    writtenAddress i s = none := by
  cases i with
  | store _ _ => cases h
  | push _ => cases h
  | _ => rfl

/-- A completed instruction changes no word but the one at its written address. -/
theorem exec_memRead {i : Instr} {s t : State} {b : Word} (h : exec i s = .next t)
    (hb : writtenAddress i s ≠ some b) : t.memRead b = s.memRead b := by
  rcases exec_next_cases h with ⟨-, rfl⟩ | ⟨_, _, -, -, -, -, rfl⟩ | ⟨_, _, rfl, -, rfl⟩ | ⟨_, rfl, -, rfl⟩ |
    ⟨_, -, -, -, rfl⟩
  · rfl -- a jump
  · rfl -- a register write
  · exact State.memWrite_memRead_ne s _ fun e => hb (congrArg some e.symm) -- Store
  · exact State.memWrite_memRead_ne s _ fun e => hb (congrArg some e.symm) -- Push
  · rfl -- Pop

theorem takenJump_withMem (i : Instr) (m : Memory) (s : State) : takenJump i (withMem m s) = takenJump i s := by
  cases i <;> rfl

/-- Memory has no influence but on the four instructions that reach it. -/
theorem exec_withMem {i : Instr} (noRead : readsMemory i = false) (noWrite : writesMemory i = false) (s : State)
    (m : Memory) : exec i (withMem m s) = onNext (withMem m) (exec i s) :=
  exec_onNext ⟨fun _ _ => rfl, rfl, fun _ => rfl, by simp [noRead], takenJump_withMem i m s⟩ fun _ hu => by
    cases hu with
    | jump _ _ => rfl
    | reg _ _ _ => rfl
    | store _ _ _ _ => cases noWrite
    | push _ _ _ _ => cases noWrite
    | pop _ _ _ => rfl

/-- Load depends on no word but the one at its address. -/
theorem exec_load_withMem {addrReg : Reg} {s : State} {m : Memory} (dstReg : Reg)
    (h : (withMem m s).memRead (s.reg addrReg) = s.memRead (s.reg addrReg)) :
    exec (.load dstReg addrReg) (withMem m s) = onNext (withMem m) (exec (.load dstReg addrReg) s) := by
  rcases Nat.lt_or_ge (s.reg addrReg).toNat s.cap with hb | hb
  · rw [exec_load dstReg hb, exec_load (s := withMem m s) dstReg hb]
    exact congrArg (fun v => Host.Outcome.next ((withMem m s).setReg dstReg v)) h
  · rw [exec_load_outside dstReg hb, exec_load_outside (s := withMem m s) dstReg hb]; rfl

/-- Pop depends on no word but the one below `sp`. -/
theorem exec_pop_withMem {s : State} {m : Memory} (r : Reg)
    (h : (withMem m s).memRead (sub16 s.sp 1) = s.memRead (sub16 s.sp 1)) :
    exec (.pop r) (withMem m s) = onNext (withMem m) (exec (.pop r) s) := by
  by_cases h0 : s.sp = 0
  · rw [exec_pop_underflow r h0, exec_pop_underflow (s := withMem m s) r h0]; rfl
  · rcases Nat.lt_or_ge (s.sp.toNat - 1) s.cap with hb | hb
    · rw [exec_pop r h0 hb, exec_pop (s := withMem m s) r h0 hb]
      exact congrArg (fun v => Host.Outcome.next (((withMem m s).setSp (sub16 s.sp 1)).setReg r v)) h
    · rw [exec_pop_outside r h0 hb, exec_pop_outside (s := withMem m s) r h0 hb]; rfl

/-! ### The parameters and the program store (R6, R73) -/

/-- No instruction writes the parameters. -/
theorem exec_cfg {i : Instr} {s t : State} (h : exec i s = .next t) : t.cfg = s.cfg := by
  rcases exec_next_cases h with ⟨-, rfl⟩ | ⟨_, _, -, -, -, -, rfl⟩ | ⟨_, _, -, -, rfl⟩ | ⟨_, -, -, rfl⟩ |
    ⟨_, -, -, -, rfl⟩ <;> rfl

theorem step_cfg {s t : State} (h : step s = .next t) : t.cfg = s.cfg := by
  obtain ⟨_, _, -, -, hexec⟩ := step_next_cases h
  rw [exec_cfg hexec, State.setPc_cfg]

theorem run_cfg {n : Nat} {s t : State} (h : run n s = .next t) : t.cfg = s.cfg :=
  run_keeps (P := fun u => u.cfg = s.cfg) (fun _ _ hs hstep => (step_cfg hstep).trans hs) rfl h

theorem not_jump_of_writesMemory {i : Instr} (h : writesMemory i = true) : isJump i = false := by
  cases i with
  | store _ _ => rfl
  | push _ => rfl
  | _ => cases h

/-- Fetch looks at the program store and `pc` only, and an instruction that is no jump leaves both. -/
theorem fetchWord_of_exec {i : Instr} {s t : State} (notJump : isJump i = false) (h : exec i s = .next t) :
    fetchWord t = fetchWord s := by
  have hpc : t.pc = s.pc := by rw [exec_pc h, takenJump_of_not_jump notJump, Option.getD_none]
  rw [fetchWord, fetchWord, exec_cfg h, hpc]

end Sys2Proof.Machine

namespace Sys2Proof.Proofs

open Sys2Proof.Machine Sys2Proof.Safety

/-- Settles O19: it holds. An instruction completes or raises a fault of the table, and every cause of the table raises
its fault. -/
theorem faultsExactlyByTheTable : Obligations.FaultsExactlyByTheTable :=
  ⟨fun _ _ _ => exec_eq_fault_iff, fun i s noCause =>
    (exec_next_or_fault i s).resolve_right fun ⟨f, _, cause⟩ => noCause f cause⟩

/-- Settles O27: it holds. -/
theorem memoryReachedOnlyByFourInstructions : Obligations.MemoryReachedOnlyByFourInstructions := by
  refine ⟨fun i s t noWrite h b => exec_memRead h ?_, fun a v s t h b hb => exec_memRead h ?_,
    fun r s t h b hb => exec_memRead h ?_, fun _ s m noRead noWrite => exec_withMem noRead noWrite s m,
    fun d _ _ _ => exec_load_withMem d, fun r _ _ => exec_pop_withMem r, fun _ _ => rfl⟩
  · simp [writtenAddress_of_not_writesMemory noWrite]
  · exact fun e => hb (Option.some.inj e).symm
  · exact fun e => hb (Option.some.inj e).symm

/-- Settles O30: it holds. The Load computes its address from the registers that the Store left. -/
theorem loadSeesLatestStore : Obligations.LoadSeesLatestStore := by
  intro a v d b s ha hb
  have load := exec_load (s := s.memWrite (s.reg a) (s.reg v)) d hb
  refine ⟨_, _, exec_store v ha, load, ?_⟩
  rw [State.setReg_reg_same, State.memWrite_memRead]; rfl

/-- Settles O31: it holds. The Push writes at the Store's address, and the Pop reads there. -/
theorem stackAndDataShareMemory : Obligations.StackAndDataShareMemory := by
  refine ⟨fun a v r s below addr => ?_, fun a v r s nonzero within addr => ?_⟩
  · exact ⟨_, _, exec_store_at v addr below, State.memWrite_memRead_same s _ _, exec_push r below,
      State.memWrite_memRead_same _ _ _⟩
  · have notZero : s.sp ≠ 0 := fun e => nonzero (congrArg BitVec.toNat e)
    have below : s.sp.toNat - 1 < s.cap := by omega
    have store := exec_store_at v (addr.trans (sub16_eq s.sp 1).symm) (by rwa [sub16_one_toNat notZero])
    exact ⟨_, _, store, exec_pop r notZero below,
      (State.setReg_reg_same _ _ _).trans (State.memWrite_memRead_same s _ _)⟩

/-- Settles O39: it holds. Store and Push are no jumps, so they leave `pc` as well as the program store. -/
theorem programStoreNeverWritten : Obligations.ProgramStoreNeverWritten :=
  ⟨fun _ _ _ => exec_cfg, fun _ _ _ => run_cfg, fun _ _ _ writes => fetchWord_of_exec (not_jump_of_writesMemory writes)⟩

end Sys2Proof.Proofs
end

section
/-! PROOFS. The decoder and the encoder, the rows of the opcode table, and the written form of registers, immediates and
instructions (the statements of spec/30_encoding.md). -/

namespace Sys2Proof

/-! ### The fields of an encoded word (R85 to R87) -/

@[simp] theorem opField_encodeRR (op : BitVec 4) (ra rb : Reg) : opField (encodeRR op ra rb) = op := opField_pack ..
@[simp] theorem zField_encodeRR (op : BitVec 4) (ra rb : Reg) : zField (encodeRR op ra rb) = 0 := zField_pack ..
@[simp] theorem raField_encodeRR (op : BitVec 4) (ra rb : Reg) : raField (encodeRR op ra rb) = fieldOfReg ra :=
  raField_pack ..
@[simp] theorem rbField_encodeRR (op : BitVec 4) (ra rb : Reg) : rbField (encodeRR op ra rb) = fieldOfReg rb :=
  rbField_pack ..
@[simp] theorem immField_encodeRR (op : BitVec 4) (ra rb : Reg) : immField (encodeRR op ra rb) = 0 := immField_pack ..

@[simp] theorem opField_encodeR (op : BitVec 4) (ra : Reg) : opField (encodeR op ra) = op := opField_pack ..
@[simp] theorem zField_encodeR (op : BitVec 4) (ra : Reg) : zField (encodeR op ra) = 0 := zField_pack ..
@[simp] theorem raField_encodeR (op : BitVec 4) (ra : Reg) : raField (encodeR op ra) = fieldOfReg ra := raField_pack ..
@[simp] theorem rbField_encodeR (op : BitVec 4) (ra : Reg) : rbField (encodeR op ra) = 0 := rbField_pack ..
@[simp] theorem immField_encodeR (op : BitVec 4) (ra : Reg) : immField (encodeR op ra) = 0 := immField_pack ..

@[simp] theorem opField_encodeI (op : BitVec 4) (imm : Word) : opField (encodeI op imm) = op := opField_pack ..
@[simp] theorem zField_encodeI (op : BitVec 4) (imm : Word) : zField (encodeI op imm) = 0 := zField_pack ..
@[simp] theorem raField_encodeI (op : BitVec 4) (imm : Word) : raField (encodeI op imm) = 0 := raField_pack ..
@[simp] theorem rbField_encodeI (op : BitVec 4) (imm : Word) : rbField (encodeI op imm) = 0 := rbField_pack ..
@[simp] theorem immField_encodeI (op : BitVec 4) (imm : Word) : immField (encodeI op imm) = imm := immField_pack ..

/-! ### Decoding an encoded word (R95) -/

theorem decodeRR_encodeRR (variant : Reg → Reg → Instr) (op : BitVec 4) (ra rb : Reg) :
    decodeRR variant (encodeRR op ra rb) = .ok (variant ra rb) := by
  simp [decodeRR_eq_ok]

theorem decodeR_encodeR (variant : Reg → Instr) (op : BitVec 4) (ra : Reg) :
    decodeR variant (encodeR op ra) = .ok (variant ra) := by
  simp [decodeR_eq_ok]

theorem decodeI_encodeI (variant : Word → Instr) (op : BitVec 4) (imm : Word) :
    decodeI variant (encodeI op imm) = .ok (variant imm) := by
  simp [decodeI_eq_ok]

/-- The opcode that `encode` writes is the one that `decode` reads back, and the format's fields follow. -/
theorem decode_encode (i : Instr) : decode (encode i) = .ok i := by
  cases i <;> simp [encode, decode, decodeRR_encodeRR, decodeR_encodeR, decodeI_encodeI]

/-! ### Encoding a decoded word (R95) -/

/-- A legal word of format RR is the encoding of its opcode and its two registers. -/
theorem encode_of_decodeRR {variant : Reg → Reg → Instr} {op : BitVec 4} {w : InstrWord} {i : Instr}
    (h : decodeRR variant w = .ok i) (row : ∀ ra rb, encode (variant ra rb) = encodeRR op ra rb)
    (hz : zField w = 0) (hop : (opField w).toNat = op.toNat) : encode i = w := by
  obtain ⟨himm, rfl⟩ := decodeRR_eq_ok.1 h
  have fields := pack_fields hz
  rw [himm, BitVec.eq_of_toNat_eq hop] at fields
  rw [row, encodeRR, fieldOfReg_regOfField, fieldOfReg_regOfField, fields]

/-- A legal word of format R is the encoding of its opcode and its register. -/
theorem encode_of_decodeR {variant : Reg → Instr} {op : BitVec 4} {w : InstrWord} {i : Instr}
    (h : decodeR variant w = .ok i) (row : ∀ ra, encode (variant ra) = encodeR op ra)
    (hz : zField w = 0) (hop : (opField w).toNat = op.toNat) : encode i = w := by
  obtain ⟨hrb, himm, rfl⟩ := decodeR_eq_ok.1 h
  have fields := pack_fields hz
  rw [hrb, himm, BitVec.eq_of_toNat_eq hop] at fields
  rw [row, encodeR, fieldOfReg_regOfField, fields]

/-- A legal word of format I is the encoding of its opcode and its immediate. -/
theorem encode_of_decodeI {variant : Word → Instr} {op : BitVec 4} {w : InstrWord} {i : Instr}
    (h : decodeI variant w = .ok i) (row : ∀ imm, encode (variant imm) = encodeI op imm)
    (hz : zField w = 0) (hop : (opField w).toNat = op.toNat) : encode i = w := by
  obtain ⟨hra, hrb, rfl⟩ := decodeI_eq_ok.1 h
  have fields := pack_fields hz
  rw [hra, hrb, BitVec.eq_of_toNat_eq hop] at fields
  rw [row, encodeI, fields]

theorem encode_of_decode {w : InstrWord} {i : Instr} (h : decode w = .ok i) : encode i = w := by
  unfold decode at h
  split at h
  · cases h
  · next z =>
    have hz := not_not.1 z
    split at h <;> rename_i hop
    iterate 7 exact encode_of_decodeRR h (fun _ _ => rfl) hz hop
    iterate 2 exact encode_of_decodeR h (fun _ => rfl) hz hop
    iterate 6 exact encode_of_decodeI h (fun _ => rfl) hz hop
    cases h

/-! ### The number of an encoded word (R84 to R89) -/

/-- The operand part of an instruction's word, by its format (R85 to R87). -/
def Instr.fieldsNumber (i : Instr) : Nat :=
  match i.toRaw.operands with
  | [a, b] => a * 2 ^ 19 + b * 2 ^ 16
  | [a] => if i.toRaw.variant ≤ 8 then a * 2 ^ 19 else a
  | _ => 0

theorem encode_toNat (i : Instr) : (encode i).toNat = i.toRaw.variant * 2 ^ 28 + i.fieldsNumber := by
  cases i with
  | add r1 r2 | sub r1 r2 | mul r1 r2 | div r1 r2 | mov r1 r2 | store r1 r2 | load r1 r2 => exact encodeRR_toNat _ r1 r2
  | push r | pop r => exact encodeR_toNat _ r
  | jmp v | jmpZ v | jmpNZ v | jmpRel v | jmpZRel v | jmpNZRel v => exact encodeI_toNat _ v

/-! ### The operands of an encoded word (R89) -/

/-- An instruction as numbers, read off the fields of its word. -/
theorem toRaw_eq_fields (i : Instr) : i.toRaw =
    ⟨(opField (encode i)).toNat,
      if (opField (encode i)).toNat ≤ 6 then [(raField (encode i)).toNat, (rbField (encode i)).toNat]
      else if (opField (encode i)).toNat ≤ 8 then [(raField (encode i)).toNat]
      else [(immField (encode i)).toNat]⟩ := by
  cases i <;> simp [Instr.toRaw, encode]

/-! ### Which words are legal (R92, R93) -/

/-- `decode_ok_cases` gives every condition there is: a word that meets them is legal. -/
theorem exists_decode_ok_iff {w : InstrWord} : (∃ i, decode w = .ok i) ↔
    zField w = 0 ∧
      (((opField w).toNat ≤ 6 ∧ immField w = 0) ∨
       (((opField w).toNat = 7 ∨ (opField w).toNat = 8) ∧ rbField w = 0 ∧ immField w = 0) ∨
       (9 ≤ (opField w).toNat ∧ (opField w).toNat ≤ 14 ∧ raField w = 0 ∧ rbField w = 0)) := by
  refine ⟨fun ⟨_, h⟩ => decode_ok_cases h, fun ⟨hz, format⟩ => ?_⟩
  rw [decode, if_neg (not_not.2 hz)]
  rcases format with ⟨hop, himm⟩ | ⟨hop, hrb, himm⟩ | ⟨low, high, hra, hrb⟩
  · interval_cases (opField w).toNat <;> exact ⟨_, decodeRR_eq_ok.2 ⟨himm, rfl⟩⟩
  · rcases hop with hop | hop <;> rw [hop] <;> exact ⟨_, decodeR_eq_ok.2 ⟨hrb, himm, rfl⟩⟩
  · interval_cases (opField w).toNat <;> exact ⟨_, decodeI_eq_ok.2 ⟨hra, hrb, rfl⟩⟩

theorem decode_eq_error_iff {w : InstrWord} : (∃ e, decode w = .error e) ↔ ¬ ∃ i, decode w = .ok i := by
  cases decode w <;> simp

/-! ### The rows of the opcode table (R92) -/

/-- The row fixes the field of `len` bits from bit `start` at `v`: its mask keeps the whole field, and its value has `v`
there. -/
abbrev OpcodeRow.Fixes (row : OpcodeRow) (start : Nat) {len : Nat} (v : BitVec len) : Prop :=
  row.mask.extractLsb' start len = BitVec.allOnes len ∧ row.value.extractLsb' start len = v

/-- A word that a row admits has, in a field that the row fixes, the row's value. -/
theorem field_of_admits {row : OpcodeRow} {w : InstrWord} {start len : Nat} {v : BitVec len}
    (h : row.admits w = true) (fixed : row.Fixes start v) : w.extractLsb' start len = v := by
  have hw : w &&& row.mask = row.value := beq_iff_eq.1 h
  rw [← fixed.2, ← hw, BitVec.extractLsb'_and, fixed.1, BitVec.and_allOnes]

/-- The fields that a row of the table fixes (R85 to R87): its opcode, zero in `z`, and zero in every field that the
opcode's format does not use. -/
abbrev OpcodeRow.FixesItsFormat (row : OpcodeRow) : Prop :=
  row.Fixes 22 0#6 ∧ row.Fixes 28 (opField row.value) ∧
    (((opField row.value).toNat ≤ 6 ∧ row.Fixes 0 0#16) ∨
     (((opField row.value).toNat = 7 ∨ (opField row.value).toNat = 8) ∧ row.Fixes 16 0#3 ∧ row.Fixes 0 0#16) ∨
     (9 ≤ (opField row.value).toNat ∧ (opField row.value).toNat ≤ 14 ∧ row.Fixes 19 0#3 ∧ row.Fixes 16 0#3))

theorem opcodeTable_fixes : ∀ row ∈ opcodeTable, row.FixesItsFormat := by decide

/-- A word that a row of the table admits is legal. -/
theorem exists_decode_of_admits {row : OpcodeRow} {w : InstrWord} (hrow : row ∈ opcodeTable)
    (h : row.admits w = true) : ∃ i, decode w = .ok i := by
  obtain ⟨hz, hop, format⟩ := opcodeTable_fixes row hrow
  have op : opField w = opField row.value := field_of_admits h hop
  rw [exists_decode_ok_iff, op]
  refine ⟨field_of_admits h hz, format.imp ?_ (Or.imp ?_ ?_)⟩
  · exact fun ⟨hop, himm⟩ => ⟨hop, field_of_admits h himm⟩
  · exact fun ⟨hop, hrb, himm⟩ => ⟨hop, field_of_admits h hrb, field_of_admits h himm⟩
  · exact fun ⟨low, high, hra, hrb⟩ => ⟨low, high, field_of_admits h hra, field_of_admits h hrb⟩

/-- A legal word is admitted by its instruction's row. -/
theorem exists_admits_of_decode {w : InstrWord} {i : Instr} (h : decode w = .ok i) :
    ∃ row ∈ opcodeTable, row.admits w = true := by
  open Laws.EncodesItsRow in
  have own : Statement i := i.casesOn add sub mul div mov store load push pop jmp jmpZ jmpNZ jmpRel jmpZRel jmpNZRel
  obtain ⟨row, hrow, admits⟩ := own
  exact ⟨row, List.mem_of_getElem? hrow, by rwa [encode_of_decode h] at admits⟩

/-- Two rows differ in a bit that both masks keep. -/
theorem opcodeTable_pairwise : opcodeTable.Pairwise fun a b => a.value &&& b.mask ≠ b.value &&& a.mask := by decide

/-- No word is admitted by two rows. -/
theorem opcodeTable_pairwise_admits (w : InstrWord) :
    opcodeTable.Pairwise fun a b => ¬ (a.admits w = true ∧ b.admits w = true) := by
  refine opcodeTable_pairwise.imp fun {a b} differ ⟨ha, hb⟩ => differ ?_
  rw [← beq_iff_eq.1 ha, ← beq_iff_eq.1 hb, BitVec.and_assoc, BitVec.and_assoc, BitVec.and_comm a.mask]

/-- Of a list in which no two elements meet a test, at most one passes it. -/
theorem length_filter_le_one {α : Type} {p : α → Bool} {l : List α}
    (h : l.Pairwise fun a b => ¬ (p a = true ∧ p b = true)) : (l.filter p).length ≤ 1 := by
  rcases hl : l.filter p with _ | ⟨a, _ | ⟨b, rest⟩⟩
  · exact Nat.zero_le 1
  · exact Nat.le_refl 1
  · have pass : ∀ c ∈ a :: b :: rest, p c = true := fun _ hc => List.of_mem_filter (hl ▸ hc)
    have apart := (List.pairwise_cons.1 (hl ▸ h.filter p)).1 b List.mem_cons_self
    exact absurd ⟨pass a (by simp), pass b (by simp)⟩ apart

theorem length_filter_eq_one_iff {α : Type} {p : α → Bool} {l : List α}
    (h : l.Pairwise fun a b => ¬ (p a = true ∧ p b = true)) :
    (l.filter p).length = 1 ↔ ∃ a ∈ l, p a = true := by
  have atMostOne := length_filter_le_one h
  have nonempty := List.length_pos_iff_exists_mem (l := l.filter p)
  simp only [List.mem_filter] at nonempty
  rw [← nonempty]; omega

end Sys2Proof

namespace Sys2Proof.Machine

/-! ### Digits and register spellings (R97) -/

theorem digitReg_eq_some_iff {c : Char} {r : Reg} : digitReg c = some r ↔ c = Nat.digitChar r.val := by
  have digit : (Nat.digitChar r.val).toNat = 48 + r.val := Nat.toNat_digitChar_of_lt_ten (by omega)
  rw [← Char.toNat_inj, digit, digitReg]
  split
  · simp only [Option.some.injEq, Fin.ext_iff]; omega
  · simp only [reduceCtorEq, false_iff]; omega

theorem parseReg_eq_some_iff {cs : List Char} {r : Reg} :
    parseReg cs = some r ↔ cs = [Nat.digitChar r.val] ∨ cs = ['r', Nat.digitChar r.val] := by
  unfold parseReg
  split
  · simp [digitReg_eq_some_iff]
  · simp [digitReg_eq_some_iff]
  · next notDigit notLetter =>
    simp only [reduceCtorEq, false_iff]
    rintro (rfl | rfl)
    · exact notDigit _ rfl
    · exact notLetter _ rfl

theorem parseReg_printReg (r : Reg) : parseReg (printReg r) = some r := parseReg_eq_some_iff.2 (.inr rfl)

/-! ### Numbers (R98) -/

theorem digitValue_digitChar {d : Nat} (h : d < 16) : digitValue (Nat.digitChar d) = some d := by
  revert d; decide

theorem parseDigits_append (base : Nat) (cs ds : List Char) (acc : Nat) :
    parseDigits base acc (cs ++ ds) = (parseDigits base acc cs).bind fun n => parseDigits base n ds := by
  induction cs generalizing acc with
  | nil => rfl
  | cons c cs ih =>
    simp only [List.cons_append, parseDigits]
    cases digitValue c with
    | none => rfl
    | some d => simp only [Option.bind_some]; split <;> simp [ih]

theorem parseDigits_digitChar {base d : Nat} (acc : Nat) (cs : List Char) (hd : d < base) (hb : base ≤ 16) :
    parseDigits base acc (Nat.digitChar d :: cs) = parseDigits base (acc * base + d) cs := by
  rw [parseDigits, digitValue_digitChar (by omega), Option.bind_some, if_pos hd]

/-- The library's digits of a number, most significant first, are read as the number. -/
theorem parseDigits_toDigits {base : Nat} (h1 : 1 < base) (hb : base ≤ 16) (n : Nat) :
    parseDigits base 0 (Nat.toDigits base n) = some n := by
  induction n using Nat.strong_induction_on with
  | _ n ih =>
    rcases Nat.lt_or_ge n base with small | large
    · rw [Nat.toDigits_of_lt_base small, parseDigits_digitChar 0 [] small hb, Nat.zero_mul, Nat.zero_add, parseDigits]
    · rw [Nat.toDigits_of_base_le h1 large, parseDigits_append, ih (n / base) (Nat.div_lt_self (by omega) h1),
        Option.bind_some, parseDigits_digitChar _ [] (Nat.mod_lt n (by omega)) hb, parseDigits, Nat.div_add_mod']

theorem parseNumber_toDigits {base : Nat} (h1 : 1 < base) (hb : base ≤ 16) (n : Nat) :
    parseNumber base (Nat.toDigits base n) = some n := by
  rw [← parseDigits_toDigits h1 hb n]
  cases h : Nat.toDigits base n with
  | nil => exact absurd h Nat.toDigits_ne_nil
  | cons c cs => rfl

/-- A spelling of decimal digits alone has neither a sign nor a letter. -/
theorem parseInteger_toDigits (n : Nat) : parseInteger (Nat.toDigits 10 n) = some (n : Int) := by
  have digits : ∀ c ∈ Nat.toDigits 10 n, c.isDigit = true :=
    fun _ => Nat.isDigit_of_mem_toDigits (by decide) (by decide)
  unfold parseInteger
  split
  · next h => exact absurd (digits 'x' (by simp [h])) (by decide)
  · next h => exact absurd (digits '-' (by simp [h])) (by decide)
  · rw [parseNumber_toDigits (by decide) (by decide)]; rfl

theorem parseInteger_hex (n : Nat) : parseInteger ('0' :: 'x' :: Nat.toDigits 16 n) = some (n : Int) := by
  rw [parseInteger, parseNumber_toDigits (by decide) (by decide)]; rfl

theorem parseInteger_neg (n : Nat) : parseInteger ('-' :: Nat.toDigits 10 n) = some (-(n : Int)) := by
  rw [parseInteger, parseNumber_toDigits (by decide) (by decide)]; rfl

/-! ### The range of an immediate (R98) -/

theorem immediateOf_natCast {n : Nat} (h : n ≤ 65535) : immediateOf n = some (BitVec.ofNat 16 n) := by
  rw [immediateOf, if_pos (by omega), wrap, BitVec.ofInt_natCast]

theorem immediateOf_neg {n : Nat} (h : n ≤ 32768) : immediateOf (-n) = some (BitVec.ofNat 16 (65536 - n)) := by
  rw [immediateOf, if_pos (by omega), Option.some.injEq, ← BitVec.toNat_inj, wrap_toNat, BitVec.toNat_ofNat]
  omega

theorem immediateOf_eq_none_iff {z : Int} : immediateOf z = none ↔ z < -32768 ∨ 65535 < z := by
  unfold immediateOf; split <;> simp <;> omega

theorem parseImmediate_of_parseInteger {cs : List Char} {z : Int} (h : parseInteger cs = some z) :
    parseImmediate cs = immediateOf z := by
  rw [parseImmediate, h, Option.bind_some]

theorem parseImmediate_printImmediate (w : Word) : parseImmediate (printImmediate w) = some w := by
  have := w.isLt
  have number : parseInteger (printImmediate w) = some (w.toNat : Int) := by
    rw [printImmediate, parseInteger, parseNumber]
    iterate 4 rw [parseDigits_digitChar _ _ (by omega) (by decide)]
    rw [parseDigits, Option.map_some]
    exact congrArg some (by simp only [Int.ofNat_eq_natCast]; omega)
  rw [parseImmediate_of_parseInteger number, immediateOf_natCast (by omega), BitVec.ofNat_toNat, BitVec.setWidth_eq]

/-! ### The tokens of a printed line (R96) -/

/-- No space and no mark of R96. -/
def isPlain (c : Char) : Bool := c != ' ' && c != '(' && c != ')' && c != ','

/-- A text that is one token: at least one character, and neither a space nor a mark in it. -/
abbrev IsRun (cs : List Char) : Prop := cs ≠ [] ∧ cs.all isPlain = true

theorem lex_cons_of_isPlain {c : Char} (h : isPlain c = true) (cs : List Char) :
    lex (c :: cs) = (c :: (lex cs).1, (lex cs).2) := by
  simp_all [isPlain, lex]

theorem lex_append {cs : List Char} (h : cs.all isPlain = true) (rest : List Char) :
    lex (cs ++ rest) = (cs ++ (lex rest).1, (lex rest).2) := by
  induction cs with
  | nil => rfl
  | cons c cs ih =>
    obtain ⟨hc, hcs⟩ : isPlain c = true ∧ cs.all isPlain = true := by simpa using h
    rw [List.cons_append, lex_cons_of_isPlain hc, ih hcs]; rfl

theorem lex_openParen (cs : List Char) : lex ('(' :: cs) = ([], .openParen :: tokens cs) := rfl
theorem lex_closeParen (cs : List Char) : lex (')' :: cs) = ([], .closeParen :: tokens cs) := rfl
theorem lex_comma (cs : List Char) : lex (',' :: cs) = ([], .comma :: tokens cs) := rfl
theorem tokens_nil : tokens [] = [] := rfl
theorem tokens_space (cs : List Char) : tokens (' ' :: cs) = tokens cs := rfl

/-- A run is one token where a mark follows it. -/
theorem tokens_run {cs rest : List Char} {ts : List Token} (h : IsRun cs) (mark : lex rest = ([], ts)) :
    tokens (cs ++ rest) = .run cs :: ts := by
  rw [tokens, lex_append h.2, mark, List.append_nil]
  cases cs with
  | nil => exact absurd rfl h.1
  | cons c cs => rfl

theorem tokens_printTwo {name : String} {a b : List Char} (hn : IsRun name.toList) (ha : IsRun a) (hb : IsRun b) :
    tokens (printTwo name a b) = [.run name.toList, .openParen, .run a, .comma, .run b, .closeParen] := by
  have line : printTwo name a b = name.toList ++ '(' :: (a ++ ',' :: ' ' :: (b ++ [')'])) := by simp [printTwo]
  rw [line, tokens_run hn (lex_openParen _), tokens_run ha (lex_comma _), tokens_space,
    tokens_run hb (lex_closeParen _), tokens_nil]

theorem tokens_printOne {name : String} {a : List Char} (hn : IsRun name.toList) (ha : IsRun a) :
    tokens (printOne name a) = [.run name.toList, .openParen, .run a, .closeParen] := by
  have line : printOne name a = name.toList ++ '(' :: (a ++ [')']) := by simp [printOne]
  rw [line, tokens_run hn (lex_openParen _), tokens_run ha (lex_closeParen _), tokens_nil]

@[simp] theorem isPlain_digitChar (d : Nat) : isPlain (Nat.digitChar d) = true := by
  simp [isPlain, Nat.digitChar_ne]

theorem isRun_printReg (r : Reg) : IsRun (printReg r) := by
  have letter : isPlain 'r' = true := by decide
  simp [IsRun, printReg, letter]

theorem isRun_printImmediate (w : Word) : IsRun (printImmediate w) := by
  have zero : isPlain '0' = true := by decide
  have x : isPlain 'x' = true := by decide
  simp [IsRun, printImmediate, zero, x]

/-! ### Reading a printed instruction (R96) -/

theorem parseInstr_printTwo {name : String} {variant : Reg → Reg → Instr} (hn : IsRun name.toList)
    (row : lookupName name.toList twoRegisterNames = some variant) (r1 r2 : Reg) :
    parseInstr (printTwo name (printReg r1) (printReg r2)) = some (variant r1 r2) := by
  rw [parseInstr, tokens_printTwo hn (isRun_printReg r1) (isRun_printReg r2)]
  simp [parseTwo, row, parseReg_printReg]

theorem parseInstr_printOne_reg {name : String} {variant : Reg → Instr} (hn : IsRun name.toList)
    (row : lookupName name.toList oneRegisterNames = some variant) (r : Reg) :
    parseInstr (printOne name (printReg r)) = some (variant r) := by
  rw [parseInstr, tokens_printOne hn (isRun_printReg r)]
  simp [parseOne, row, parseReg_printReg]

theorem parseInstr_printOne_imm {name : String} {variant : Word → Instr} (hn : IsRun name.toList)
    (notReg : lookupName name.toList oneRegisterNames = none)
    (row : lookupName name.toList immediateNames = some variant) (w : Word) :
    parseInstr (printOne name (printImmediate w)) = some (variant w) := by
  rw [parseInstr, tokens_printOne hn (isRun_printImmediate w)]
  simp [parseOne, notReg, row, parseImmediate_printImmediate]

theorem parseInstr_printInstr (i : Instr) : parseInstr (printInstr i) = some i := by
  cases i with
  | add r1 r2 | sub r1 r2 | mul r1 r2 | div r1 r2 | mov r1 r2 | store r1 r2 | load r1 r2 =>
    exact parseInstr_printTwo (by decide) rfl r1 r2
  | push r | pop r => exact parseInstr_printOne_reg (by decide) rfl r
  | jmp v | jmpZ v | jmpNZ v | jmpRel v | jmpZRel v | jmpNZRel v =>
    exact parseInstr_printOne_imm (by decide) rfl rfl v

end Sys2Proof.Machine

namespace Sys2Proof.Proofs

open Sys2Proof.Machine Sys2Proof.Safety

/-- Settles O51: it holds, by the round trip of each format. -/
theorem encodeInvertsDecode : Obligations.EncodeInvertsDecode :=
  ⟨decode_encode, fun _ _ => encode_of_decode, encode_toNat⟩

/-- Settles O52: it holds. A legal word is the encoded word of its instruction, whose fields are the operands. -/
theorem fieldsCarryOperands : Obligations.FieldsCarryOperands := by
  intro w i h
  obtain rfl := encode_of_decode h
  rw [toRaw_eq_fields, opField_toNat, raField_toNat, rbField_toNat, immField_toNat]
  exact ⟨rfl, rfl⟩

/-- Settles O53: it holds. A word is illegal when it fails the conditions of a legal word, read as numbers. -/
theorem illegalWordsExactly : Obligations.IllegalWordsExactly := by
  refine ⟨fun w => ?_, fun s w e hw he => cycle_of_fault (step_of_illegal hw he)⟩
  have := w.isLt
  simp only [decode_eq_error_iff, exists_decode_ok_iff, ← BitVec.toNat_inj, opField_toNat, zField_toNat,
    raField_toNat, rbField_toNat, immField_toNat, BitVec.ofNat_eq_ofNat, BitVec.toNat_ofNat]
  omega

/-- Settles O54: it holds. The rows are apart, and a row of the table fixes exactly what legality asks of its format. -/
theorem legalWordsMatchOneRow : Obligations.LegalWordsMatchOneRow := by
  refine ⟨fun w => ?_, fun w => length_filter_le_one (opcodeTable_pairwise_admits w)⟩
  rw [length_filter_eq_one_iff (opcodeTable_pairwise_admits w)]
  exact ⟨fun ⟨_, h⟩ => exists_admits_of_decode h, fun ⟨_, hrow, h⟩ => exists_decode_of_admits hrow h⟩

/-- Settles O56: it holds. The line's tokens are its mnemonic, marks and operands, and each operand reads back. -/
theorem writtenInstructionReadsBack : Obligations.WrittenInstructionReadsBack := parseInstr_printInstr

/-- Settles O57: it holds. The reader takes one digit alone or after `r`, and a digit reads as its own register only. -/
theorem registerSpellings : Obligations.RegisterSpellings := fun _ _ => parseReg_eq_some_iff

/-- Settles O58: it holds. Each spelling reads as its integer, and the range decides. -/
theorem immediateSpellings : Obligations.ImmediateSpellings := by
  intro n
  rw [parseImmediate_of_parseInteger (parseInteger_toDigits n), parseImmediate_of_parseInteger (parseInteger_hex n),
    parseImmediate_of_parseInteger (parseInteger_neg n)]
  refine ⟨fun h => ⟨immediateOf_natCast h, immediateOf_natCast h⟩, fun h => ?_, immediateOf_neg, fun h => ?_⟩
  · have outside : immediateOf n = none := immediateOf_eq_none_iff.2 (by omega)
    exact ⟨outside, outside⟩
  · exact immediateOf_eq_none_iff.2 (by omega)

/-- Settles O32: it holds. The jump adds 0 to the advanced `pc`. -/
theorem identityInstructions : Obligations.IdentityInstructions := by
  refine ⟨exec_mov_self, exec_sub_self, fun s hw => ?_⟩
  have taken : takenJump (.jmpRel 0) (s.setPc (s.pc + 1)) = some (s.pc + 1) := congrArg some (BitVec.add_zero _)
  rw [step_of_decoded hw (decode_encode _), exec_takenJump rfl taken, State.setPc_setPc]

/-- Settles O55: it holds, by running the decoder on the six words. -/
theorem writtenOutWordsDecode : Obligations.WrittenOutWordsDecode := by
  unfold Obligations.WrittenOutWordsDecode
  decide

end Sys2Proof.Proofs
end

section
/-! PROOFS. Add, Sub, Mul and Div, each with its word, its result and its frame (the statements of
spec/40_arithmetic.md). -/

namespace Sys2Proof

/-! ### A word as the fields shifted into place (R84, R85) -/

theorem pack_eq_or (op : BitVec 4) (ra rb : BitVec 3) (imm : Word) :
    pack op ra rb imm =
      op.setWidth 32 <<< 28 ||| ra.setWidth 32 <<< 19 ||| rb.setWidth 32 <<< 16 ||| imm.setWidth 32 := by
  have widened : pack op ra rb imm = (op ++ 0#6 ++ ra ++ rb ++ imm).setWidth 32 := (BitVec.setWidth_eq _).symm
  rw [widened]
  simp only [BitVec.setWidth_append_eq_shiftLeft_setWidth_or]
  simp only [BitVec.shiftLeft_or_distrib, ← BitVec.shiftLeft_add, BitVec.setWidth_zero, BitVec.or_zero,
    Nat.reduceAdd]

theorem fieldOfReg_setWidth (r : Reg) : (fieldOfReg r).setWidth 32 = BitVec.ofNat 32 r.val := by
  revert r; decide

theorem encodeRR_eq_or (op : BitVec 4) (ra rb : Reg) :
    encodeRR op ra rb = op.setWidth 32 <<< 28 ||| BitVec.ofNat 32 ra.val <<< 19 ||| BitVec.ofNat 32 rb.val <<< 16 := by
  rw [encodeRR, pack_eq_or, fieldOfReg_setWidth, fieldOfReg_setWidth]
  exact BitVec.or_zero

end Sys2Proof

namespace Sys2Proof.Machine

open Sys2Proof.Safety

/-! ### The frame of a register write (R8) -/

/-- What a write of one register leaves unchanged: the rest of the state. -/
theorem State.setReg_frame (s : State) (r : Reg) (v : Word) :
    SameRegsBut r s (s.setReg r v) ∧ SameMemory s (s.setReg r v) ∧ (s.setReg r v).sp = s.sp ∧
      (s.setReg r v).pc = s.pc ∧ (s.setReg r v).zf = s.zf ∧ (s.setReg r v).cfg = s.cfg :=
  ⟨fun _ other => State.setReg_reg_ne s v other, fun _ => rfl, rfl, rfl, rfl, rfl⟩

end Sys2Proof.Machine

namespace Sys2Proof.Proofs

open Sys2Proof.Machine Sys2Proof.Safety

/-- Settles O4: it holds. The register written is the one that takes the wrapped sum. -/
theorem addWrapsIntoFirstRegister : Obligations.AddWrapsIntoFirstRegister := by
  refine fun r1 r2 s => ⟨encodeRR_eq_or 0 r1 r2, _, exec_add r1 r2 s, ?_, State.setReg_frame s r1 _⟩
  rw [State.setReg_reg_same, add16_toNat]

/-- Settles O5: it holds. The difference is taken over the integers, before it wraps. -/
theorem subWrapsIntoFirstRegister : Obligations.SubWrapsIntoFirstRegister := by
  refine fun r1 r2 s => ⟨encodeRR_eq_or 1 r1 r2, _, exec_sub r1 r2 s, ?_, State.setReg_frame s r1 _⟩
  rw [State.setReg_reg_same, sub16_toInt]

/-- Settles O6: it holds. The product is exact, and the wrap keeps its low half. -/
theorem mulKeepsLowHalfOfProduct : Obligations.MulKeepsLowHalfOfProduct := by
  refine fun r1 r2 s => ⟨encodeRR_eq_or 2 r1 r2, _, exec_mul r1 r2 s, ?_, State.setReg_frame s r1 _⟩
  rw [State.setReg_reg_same, mul16_toNat]

/-- Settles O7: it holds. The divisor's value decides between the fault and the quotient, which never wraps. -/
theorem divGivesQuotientOrFaults : Obligations.DivGivesQuotientOrFaults := by
  refine fun r1 r2 s => ⟨encodeRR_eq_or 3 r1 r2, fun zero => ?_, fun nonzero => ?_⟩
  · have fault := exec_div_by_zero r1 (BitVec.eq_of_toNat_eq zero)
    exact ⟨fault, stepPort_of_fault fault⟩
  · have divisor : s.reg r2 ≠ 0 := fun e => nonzero (congrArg BitVec.toNat e)
    refine ⟨_, exec_div r1 divisor, ?_, State.setReg_frame s r1 _⟩
    rw [State.setReg_reg_same, div16_toNat]

end Sys2Proof.Proofs
end

section
/-! PROOFS. Mov, Store and Load, each with its word, its result and its frame (the statements of
spec/41_data_movement.md). -/

namespace Sys2Proof.Machine

open Sys2Proof.Safety

/-! ### The frame of a memory write (R60) -/

/-- What a write of one word leaves unchanged: every other word, the registers and the rest of the state. -/
theorem State.memWrite_frame (s : State) (a v : Word) :
    SameMemoryBut a s (s.memWrite a v) ∧ SameRegs s (s.memWrite a v) ∧ (s.memWrite a v).sp = s.sp ∧
      (s.memWrite a v).pc = s.pc ∧ (s.memWrite a v).zf = s.zf ∧ (s.memWrite a v).cfg = s.cfg :=
  ⟨fun _ other => State.memWrite_memRead_ne s v other, fun _ => rfl, rfl, rfl, rfl, rfl⟩

end Sys2Proof.Machine

namespace Sys2Proof.Proofs

open Sys2Proof.Machine Sys2Proof.Safety

/-- Settles O8: it holds. -/
theorem movCopiesRegister : Obligations.MovCopiesRegister := fun r1 r2 s =>
  ⟨encodeRR_eq_or 4 r1 r2, _, exec_mov r1 r2 s, State.setReg_reg_same s r1 _, State.setReg_frame s r1 _⟩

/-- Settles O9: it holds. The address's bound decides between the fault and the one write. -/
theorem storeWritesOneWordOrFaults : Obligations.StoreWritesOneWordOrFaults := by
  refine fun addrReg valReg s => ⟨encodeRR_eq_or 5 addrReg valReg, fun outside => ?_, fun inside => ?_⟩
  · have fault := exec_store_outside valReg outside
    exact ⟨fault, stepPort_of_fault fault⟩
  · exact ⟨_, exec_store valReg inside, State.memWrite_memRead_same s _ _, State.memWrite_frame s _ _⟩

/-- Settles O10: it holds. The word that the register takes is read in the state before the write, so a destination
that is also the address register needs no case of its own. -/
theorem loadReadsOneWordOrFaults : Obligations.LoadReadsOneWordOrFaults := by
  refine fun dstReg addrReg s => ⟨encodeRR_eq_or 6 dstReg addrReg, fun outside => ?_, fun inside => ?_⟩
  · have fault := exec_load_outside dstReg outside
    exact ⟨fault, stepPort_of_fault fault⟩
  · exact ⟨_, exec_load dstReg inside, State.setReg_reg_same s dstReg _, State.setReg_frame s dstReg _⟩

end Sys2Proof.Proofs
end

section
/-! PROOFS. Push and Pop, each with its word, its result and its frame, and the law of one after the other (the
statements of spec/42_stack.md). -/

namespace Sys2Proof

/-! ### A word of format R (R86) -/

theorem encodeR_eq_or (op : BitVec 4) (ra : Reg) :
    encodeR op ra = op.setWidth 32 <<< 28 ||| BitVec.ofNat 32 ra.val <<< 19 := by
  rw [encodeR, pack_eq_or, fieldOfReg_setWidth]
  exact BitVec.or_zero.trans BitVec.or_zero

end Sys2Proof

namespace Sys2Proof.Machine

/-! ### The stack pointer after a Push (R151, R153) -/

/-- Under a legal capacity the address above an in-bounds one needs no wrap. -/
theorem add16_one_toNat_of_wf {s : State} {a : Word} (wf : s.cfg.wf = true) (below : a.toNat < s.cap) :
    (add16 a 1).toNat = a.toNat + 1 :=
  add16_one_toNat (below.trans_le (Config.wf_iff.1 wf).1)

theorem sub16_add16_cancel (a b : Word) : sub16 (add16 a b) b = a := by
  rw [sub16_eq, add16_eq, BitVec.add_sub_cancel]

/-- With `sp` just above an in-bounds address, a Pop completes and takes the word there. -/
theorem exec_pop_above {s : State} {a : Word} (r : Reg) (wf : s.cfg.wf = true) (below : a.toNat < s.cap) :
    exec (.pop r) (s.setSp (add16 a 1)) = .next ((s.setSp a).setReg r (s.memRead a)) := by
  have above : (add16 a 1).toNat = a.toNat + 1 := add16_one_toNat_of_wf wf below
  have nonzero : add16 a 1 ≠ 0 := fun e => Nat.succ_ne_zero _ (above.symm.trans (congrArg BitVec.toNat e))
  have within : (add16 a 1).toNat - 1 < s.cap := by rwa [above]
  have pop := exec_pop (s := s.setSp (add16 a 1)) r nonzero within
  rwa [State.setSp_sp, sub16_add16_cancel] at pop

end Sys2Proof.Machine

namespace Sys2Proof.Proofs

open Sys2Proof.Machine Sys2Proof.Safety

/-- Settles O29: it holds. The Pop looks one below the `sp` that the Push left, which is where the Push wrote. -/
theorem pushThenPopLaw : Obligations.PushThenPopLaw := by
  refine fun r r2 s wf => ⟨fun below => ?_, exec_push_overflow r⟩
  have written : (s.memWrite s.sp (s.reg r)).memRead s.sp = s.reg r := State.memWrite_memRead_same s _ _
  have pop := exec_pop_above (s := s.memWrite s.sp (s.reg r)) r2 wf below
  exact ⟨_, _, exec_push r below, pop, (State.setReg_reg_same _ r2 _).trans written, rfl, written⟩

/-- Settles O11: it holds. The bound of `sp` decides between the fault and the one write. -/
theorem pushWritesAtStackPointerOrFaults : Obligations.PushWritesAtStackPointerOrFaults := by
  refine fun r s => ⟨encodeR_eq_or 7 r, fun full => ?_, fun below => ?_⟩
  · have fault := exec_push_overflow r full
    exact ⟨fault, stepPort_of_fault fault⟩
  · obtain ⟨memory, regs, -, pc, zf, cfg⟩ := State.memWrite_frame s s.sp (s.reg r)
    exact ⟨_, exec_push r below, State.memWrite_memRead_same s _ _, memory, add16_eq s.sp 1,
      fun wf => add16_one_toNat_of_wf wf below, regs, pc, zf, cfg⟩

/-- Settles O12: it holds. The empty stack is tested before the bound, and the word is read where `sp` ends up. -/
theorem popReadsBelowStackPointerOrFaults : Obligations.PopReadsBelowStackPointerOrFaults := by
  intro r s
  have notZero : s.sp.toNat ≠ 0 → s.sp ≠ 0 := mt (congrArg BitVec.toNat)
  refine ⟨encodeR_eq_or 8 r, fun empty => ?_, fun nonzero outside => ?_, fun nonzero within => ?_⟩
  · have fault := exec_pop_underflow r (BitVec.eq_of_toNat_eq empty)
    exact ⟨fault, stepPort_of_fault fault⟩
  · have fault := exec_pop_outside r (notZero nonzero) outside
    exact ⟨fault, stepPort_of_fault fault⟩
  · obtain ⟨regs, memory, -, pc, zf, cfg⟩ := State.setReg_frame (s.setSp (sub16 s.sp 1)) r (s.memRead (sub16 s.sp 1))
    exact ⟨_, exec_pop r (notZero nonzero) within, sub16_one_toNat (notZero nonzero), State.setReg_reg_same _ r _,
      regs, memory, pc, zf, cfg⟩

end Sys2Proof.Proofs
end

section
/-! PROOFS. The six jumps, each with its word, its `pc` and its frame, and the two unconditional ones through the
sequencer (the statements of spec/43_control_transfer.md). -/

namespace Sys2Proof

/-! ### A word of format I (R87) -/

theorem encodeI_eq_or (op : BitVec 4) (imm : Word) : encodeI op imm = op.setWidth 32 <<< 28 ||| imm.setWidth 32 := by
  have noFields : encodeI op imm = op.setWidth 32 <<< 28 ||| 0#32 ||| 0#32 ||| imm.setWidth 32 := pack_eq_or op 0 0 imm
  rw [noFields, BitVec.or_zero, BitVec.or_zero]

end Sys2Proof

namespace Sys2Proof.Machine

open Sys2Proof.Safety

/-! ### The frame of a jump (R170) -/

/-- What a write of `pc` leaves unchanged: the rest of the state. -/
theorem State.setPc_frame (s : State) (v : Word) :
    SameRegs s (s.setPc v) ∧ SameMemory s (s.setPc v) ∧ (s.setPc v).sp = s.sp ∧ (s.setPc v).zf = s.zf ∧
      (s.setPc v).cfg = s.cfg :=
  ⟨fun _ => rfl, fun _ => rfl, rfl, rfl, rfl⟩

/-! ### The `pc` of a conditional jump (R170) -/

/-- A conditional jump goes to its target where the condition holds, and stays where it is otherwise. -/
theorem conditionalTarget_getD (taken : Prop) [Decidable taken] (target pc : Word) :
    (if taken then some target else none).getD pc = if taken then target else pc := by
  split <;> rfl

/-- The same for a relative jump, whose target is the sum modulo 2^16. -/
theorem conditionalTarget_rel_toNat (taken : Prop) [Decidable taken] (off pc : Word) :
    ((if taken then some (pc + off) else none).getD pc).toNat =
      if taken then (pc.toNat + off.toNat) % 65536 else pc.toNat := by
  rw [conditionalTarget_getD, apply_ite BitVec.toNat, BitVec.toNat_add]

/-! ### A jump through the sequencer (R42) -/

/-- A cycle that fetches a jump and takes it, with the target computed from the advanced `pc`, changes `pc` only. -/
theorem step_of_takenJump {i : Instr} {s : State} {target : Word} (jump : isJump i = true)
    (fetched : s.cfg.prog[s.pc.toNat]? = some (encode i)) (taken : takenJump i (s.setPc (s.pc + 1)) = some target) :
    step s = .next (s.setPc target) := by
  rw [step_of_decoded fetched (decode_encode i), exec_takenJump jump taken, State.setPc_setPc]

end Sys2Proof.Machine

namespace Sys2Proof.Proofs

open Sys2Proof.Machine Sys2Proof.Safety

/-- Settles O13: it holds. The target does not depend on `pc`, so the sequencer's advance does not show. -/
theorem jmpSetsPc : Obligations.JmpSetsPc := fun addr s =>
  ⟨encodeI_eq_or 9 addr, ⟨_, exec_takenJump rfl rfl, rfl, State.setPc_frame s addr⟩,
    fun fetched => ⟨s.setPc addr, step_of_takenJump rfl fetched rfl, rfl, (cycle_ended_iff (s := s.setPc addr)).2⟩⟩

/-- Settles O14: it holds. The flag decides, and it is clear at reset. -/
theorem jmpZJumpsWhenFlagSet : Obligations.JmpZJumpsWhenFlagSet := fun addr s _ =>
  ⟨encodeI_eq_or 10 addr,
    ⟨_, exec_jump rfl s, conditionalTarget_getD (s.zf = true) addr s.pc, State.setPc_frame s _⟩,
    exec_notTakenJump rfl rfl⟩

/-- Settles O15: it holds. The clear flag decides, and it is clear at reset. -/
theorem jmpNZJumpsWhenFlagClear : Obligations.JmpNZJumpsWhenFlagClear := fun addr s _ =>
  ⟨encodeI_eq_or 11 addr,
    ⟨_, exec_jump rfl s, conditionalTarget_getD (s.zf = false) addr s.pc, State.setPc_frame s _⟩,
    exec_takenJump rfl rfl⟩

/-- Settles O16: it holds. The sequencer's advance and the offset wrap together. -/
theorem jmpRelAddsToPc : Obligations.JmpRelAddsToPc := by
  refine fun off s => ⟨encodeI_eq_or 12 off,
    ⟨_, exec_takenJump rfl rfl, BitVec.toNat_add s.pc off, State.setPc_frame s _⟩, fun fetched => ?_⟩
  refine ⟨s.setPc (s.pc + 1 + off), step_of_takenJump rfl fetched rfl, ?_⟩
  rw [State.setPc_pc, BitVec.toNat_add, BitVec.toNat_add, one_toNat, Nat.mod_add_mod]

/-- Settles O17: it holds. The flag decides, and it is clear at reset. -/
theorem jmpZRelAddsToPcWhenFlagSet : Obligations.JmpZRelAddsToPcWhenFlagSet := fun off s _ =>
  ⟨encodeI_eq_or 13 off,
    ⟨_, exec_jump rfl s, conditionalTarget_rel_toNat (s.zf = true) off s.pc, State.setPc_frame s _⟩,
    exec_notTakenJump rfl rfl⟩

/-- Settles O18: it holds. At reset `pc` is 0, so the target is the offset itself. -/
theorem jmpNZRelAddsToPcWhenFlagClear : Obligations.JmpNZRelAddsToPcWhenFlagClear := by
  refine fun off s c => ⟨encodeI_eq_or 14 off,
    ⟨_, exec_jump rfl s, conditionalTarget_rel_toNat (s.zf = false) off s.pc, State.setPc_frame s _⟩, ?_⟩
  have taken : takenJump (.jmpNZRel off) (State.initial c) = some off := congrArg some (BitVec.zero_add off)
  exact exec_takenJump rfl taken

end Sys2Proof.Proofs
end

section
/-! PROOFS. The results that the two ports answer, and the two outcomes of the sequencer (the statements of
spec/60_exceptions.md). -/

namespace Sys2Proof.Machine

open Sys2Proof.Safety

/-! ### The faults of an instruction and of a cycle (R200, R205, R209) -/

/-- An illegal word is no fault of R200's table: only the sequencer answers it (R205). -/
theorem not_faultCause_illegalInstruction (i : Instr) (s : State) : ¬ FaultCause i s .illegalInstruction := by
  cases i <;> simp [FaultCause]

/-- Every way a cycle can stop, in the order of R209: the end of the program, an illegal word, and the fault of the
instruction. -/
theorem step_fault_cases {s : State} {f : Fault} (h : step s = .fault f) :
    (f = .endOfRun ∧ s.cfg.prog.length ≤ s.pc.toNat) ∨
    (f = .illegalInstruction ∧ ∃ w e, s.cfg.prog[s.pc.toNat]? = some w ∧ decode w = .error e) ∨
    ∃ w i, s.cfg.prog[s.pc.toNat]? = some w ∧ decode w = .ok i ∧ FaultCause i (s.setPc (s.pc + 1)) f := by
  rcases Nat.lt_or_ge s.pc.toNat s.cfg.prog.length with inside | outside
  · have hw := List.getElem?_eq_getElem inside
    cases hd : decode s.cfg.prog[s.pc.toNat] with
    | error e =>
      cases (step_of_illegal hw hd).symm.trans h
      exact .inr (.inl ⟨rfl, _, e, hw, hd⟩)
    | ok i => exact .inr (.inr ⟨_, i, hw, hd, faultCause_of_exec ((step_of_decoded hw hd).symm.trans h)⟩)
  · cases (step_of_end outside).symm.trans h
    exact .inl ⟨rfl, outside⟩

theorem step_eq_illegalInstruction_iff {s : State} : step s = .fault .illegalInstruction ↔
    ∃ w e, s.cfg.prog[s.pc.toNat]? = some w ∧ decode w = .error e := by
  refine ⟨fun h => ?_, fun ⟨_, _, hw, he⟩ => step_of_illegal hw he⟩
  obtain ⟨other, -⟩ | ⟨-, illegal⟩ | ⟨_, i, -, -, cause⟩ := step_fault_cases h
  · cases other
  · exact illegal
  · exact absurd cause (not_faultCause_illegalInstruction i _)

/-! ### The results of the ports (R206) -/

theorem Result.ofFault_injective : Function.Injective Result.ofFault := by
  intro f g
  cases f <;> cases g <;> simp [Result.ofFault]

theorem Result.ofFault_ne_ok (f : Fault) : Result.ofFault f ≠ .ok := by
  cases f <;> simp [Result.ofFault]

/-- A cycle answers the result of a stop reason just when it stops for that reason. -/
theorem cycle_eq_ofFault_iff {s : State} {f : Fault} :
    (cycle s).1 = some (Result.ofFault f) ↔ step s = .fault f := by
  rcases step_next_or_fault s with ⟨t, h⟩ | ⟨g, h⟩
  · simp [cycle_of_next h, h, (Result.ofFault_ne_ok f).symm]
  · simp [cycle_of_fault h, h, Result.ofFault_injective.eq_iff]

/-- A cycle that stops leaves its state (R44). -/
theorem cycle_state_of_ofFault {s : State} {f : Fault} (h : (cycle s).1 = some (Result.ofFault f)) :
    (cycle s).2 = s := by
  rw [cycle_of_fault (cycle_eq_ofFault_iff.1 h)]

theorem Result.code_le_six (r : Result) : r.code ≤ 6 := by cases r <;> decide

/-- The codes 5 and 6 are those of the sequencer's two outcomes, which are not in R200's table. -/
theorem code_le_four_of_faultCause {i : Instr} {s : State} {f : Fault} (cause : FaultCause i s f) :
    (Result.ofFault f).code ≤ 4 := by
  cases f with
  | illegalInstruction => exact absurd cause (not_faultCause_illegalInstruction i s)
  | endOfRun => exact absurd cause (not_faultCause_endOfRun i s)
  | _ => decide

theorem stepPort_code (i : Instr) (s : State) : ∃ r, (stepPort i s).1 = some r ∧ r.code ≤ 4 := by
  rcases exec_next_or_fault i s with ⟨t, h⟩ | ⟨f, h, cause⟩
  · exact ⟨.ok, by rw [stepPort_of_next h], by decide⟩
  · exact ⟨Result.ofFault f, by rw [stepPort_of_fault h], code_le_four_of_faultCause cause⟩

theorem cycle_code (s : State) : ∃ r, (cycle s).1 = some r ∧ r.code ≤ 6 := by
  rcases step_next_or_fault s with ⟨t, h⟩ | ⟨f, h⟩
  · exact ⟨.ok, by rw [cycle_of_next h], Result.code_le_six _⟩
  · exact ⟨Result.ofFault f, by rw [cycle_of_fault h], Result.code_le_six _⟩

end Sys2Proof.Machine

namespace Sys2Proof.Proofs

open Sys2Proof.Machine Sys2Proof.Safety

/-- Settles O22: it holds. R200's table names neither outcome, so each comes from the sequencer's own check of the
program's end or of the word, and there a cycle leaves its state. -/
theorem stepPortRaisesNoSequencerOutcome : Obligations.StepPortRaisesNoSequencerOutcome := by
  refine ⟨fun i s => ⟨fun h => ?_, fun h => ?_⟩, fun s => ?_, fun s => cycle_ended_iff, fun s h => ?_, rfl, rfl⟩
  · exact not_faultCause_illegalInstruction i s (faultCause_of_exec h)
  · exact not_faultCause_endOfRun i s (faultCause_of_exec h)
  · exact (cycle_eq_ofFault_iff (f := .illegalInstruction)).trans step_eq_illegalInstruction_iff
  · rcases h with illegal | ended
    · exact cycle_state_of_ofFault (f := .illegalInstruction) illegal
    · exact cycle_state_of_ofFault (f := .endOfRun) ended

/-- Settles O21: it holds. An instruction that stops has a cause in R200's table, whose faults have the codes 1 to 4. -/
theorem resultCodesOfBothPorts : Obligations.ResultCodesOfBothPorts :=
  ⟨rfl, rfl, rfl, rfl, rfl, rfl, rfl, stepPort_code, cycle_code⟩

end Sys2Proof.Proofs
end

section
/-! PROOFS. What holds of a run from reset without host writes, where a run stops, and the reset input (the statements of
spec/70_reset_and_hazards.md). -/

namespace Sys2Proof.Machine

open Sys2Proof.Safety

/-! ### Registers and memory that hold only 0 (R235) -/

theorem initial_allZero (c : Config) : AllZero (State.initial c) := ⟨State.initial_reg c, State.initial_memRead c⟩

theorem setReg_allZero {s : State} {v : Word} (hs : AllZero s) (r : Reg) (hv : v = 0) : AllZero (s.setReg r v) := by
  obtain ⟨regs, words⟩ := hs
  refine ⟨fun q => ?_, words⟩
  rw [State.setReg_reg, hv, regs, ite_self]

theorem setPc_allZero {s : State} (hs : AllZero s) (v : Word) : AllZero (s.setPc v) := hs

theorem setSp_allZero {s : State} (hs : AllZero s) (v : Word) : AllZero (s.setSp v) := hs

theorem memWrite_allZero {s : State} {v : Word} (hs : AllZero s) (a : Word) (hv : v = 0) :
    AllZero (s.memWrite a v) := by
  obtain ⟨regs, words⟩ := hs
  refine ⟨regs, fun b => ?_⟩
  rw [State.memWrite_memRead, hv, words, ite_self]

/-- No instruction creates a constant: Add, Sub and Mul give 0 from 0, Mov and Load copy, and a Div by 0 does not
complete. -/
theorem written_reg_eq_zero {i : Instr} {r : Reg} {s t : State} (hs : AllZero s) (h : exec i s = .next t)
    (hr : writesRegs i = [r]) (noStack : usesStack i = false) : t.reg r = 0 := by
  obtain ⟨regs, words⟩ := hs
  have operation {op : Word → Word → Word} (r1 r2 : Reg) (op_zero : op 0 0 = 0) :
      (s.setReg r1 (op (s.reg r1) (s.reg r2))).reg r1 = 0 := by
    rw [State.setReg_reg_same, regs, regs, op_zero]
  cases i with
  | add r1 r2 =>
    cases hr; cases h
    exact operation r r2 (op := add16) rfl
  | sub r1 r2 =>
    cases hr; cases h
    exact operation r r2 (op := sub16) rfl
  | mul r1 r2 =>
    cases hr; cases h
    exact operation r r2 (op := mul16) rfl
  | div r1 r2 =>
    rw [exec_div_by_zero r1 (regs r2)] at h
    cases h
  | mov r1 r2 =>
    cases hr; cases h
    exact (State.setReg_reg_same s r _).trans (regs r2)
  | load dstReg addrReg =>
    cases hr
    rcases Nat.lt_or_ge (s.reg addrReg).toNat s.cap with inside | outside
    · rw [exec_load r inside] at h
      cases h
      exact (State.setReg_reg_same s r _).trans (words _)
    · rw [exec_load_outside r outside] at h
      cases h
  | pop _ => cases noStack
  | _ => cases hr

/-- Every word that an instruction writes comes from a register or a memory word, or is the result of an operation on
two registers. -/
theorem exec_keeps_allZero {i : Instr} {s t : State} (hs : AllZero s) (h : exec i s = .next t) : AllZero t := by
  have ⟨regs, words⟩ := hs
  rcases exec_next_cases h with ⟨-, rfl⟩ | ⟨r, v, -, noStack, -, row, rfl⟩ | ⟨_, valReg, -, -, rfl⟩ | ⟨r, -, -, rfl⟩ |
    ⟨r, -, -, -, rfl⟩
  · exact setPc_allZero hs _ -- a jump
  · have written := written_reg_eq_zero hs h row noStack -- a register write
    exact setReg_allZero hs r ((State.setReg_reg_same s r v).symm.trans written)
  · exact memWrite_allZero hs _ (regs valReg) -- Store
  · exact setSp_allZero (memWrite_allZero hs _ (regs r)) _ -- Push
  · exact setReg_allZero (setSp_allZero hs _) r (words _) -- Pop

theorem step_keeps_allZero {s t : State} (hs : AllZero s) (h : step s = .next t) : AllZero t := by
  obtain ⟨_, _, -, -, hexec⟩ := step_next_cases h
  exact exec_keeps_allZero (setPc_allZero hs _) hexec

/-! ### A jump to itself (R239) -/

/-- A cycle that fetches a jump and takes it to the index it was fetched from changes nothing. -/
theorem step_of_jumpToItself {i : Instr} {s : State} (jump : isJump i = true)
    (fetched : s.cfg.prog[s.pc.toNat]? = some (encode i))
    (taken : takenJump i (s.setPc (s.pc + 1)) = some s.pc) : step s = .next s :=
  step_of_takenJump jump fetched taken

/-- The offset -1 takes back the sequencer's advance. -/
theorem add_one_add_minusOne (a : Word) : a + 1 + 0xFFFF = a := by
  have wraps : (1 : Word) + 0xFFFF = 0 := by decide
  rw [BitVec.add_assoc, wraps]
  exact BitVec.add_zero a

/-- Where one cycle changes nothing, no number of cycles does. -/
theorem run_of_step_self {s : State} (h : step s = .next s) (n : Nat) : run n s = .next s := by
  induction n with
  | zero => rfl
  | succ n ih => rw [run_of_next h, ih]

/-! ### Where a run stops (R236) -/

/-- A run whose first cycles complete goes on from the state that they reach. -/
theorem run_add {m : Nat} {s t : State} (h : run m s = .next t) (k : Nat) : run (m + k) s = run k t := by
  induction m generalizing s with
  | zero => cases h; rw [Nat.zero_add]
  | succ m ih =>
    obtain ⟨u, hu, hr⟩ := run_succ_next h
    rw [Nat.succ_add, run_of_next hu, ih hr]

/-- A run stops just when, after fewer cycles, one more cycle stops. -/
theorem run_eq_fault_iff {n : Nat} {s : State} {f : Fault} :
    run n s = .fault f ↔ ∃ m t, m < n ∧ run m s = .next t ∧ step t = .fault f := by
  constructor
  · intro h
    induction n generalizing s with
    | zero => cases h
    | succ n ih =>
      cases hs : step s with
      | next u =>
        rw [run_of_next hs] at h
        obtain ⟨m, t, fewer, hrun, stop⟩ := ih h
        exact ⟨m + 1, t, Nat.succ_lt_succ fewer, (run_of_next hs m).trans hrun, stop⟩
      | fault g =>
        cases (run_of_fault hs n).symm.trans h
        exact ⟨0, s, n.succ_pos, run_zero s, hs⟩
      | refused r => cases (run_of_refused hs n).symm.trans h
  · rintro ⟨m, t, fewer, hrun, stop⟩
    obtain ⟨k, rfl⟩ := Nat.exists_eq_add_of_lt fewer
    exact (run_add hrun (k + 1)).trans (run_of_fault stop k)

end Sys2Proof.Machine

namespace Sys2Proof.Proofs

open Sys2Proof.Machine Sys2Proof.Safety

/-- Settles O41: it holds. No value but 0 is there to be written, and the construction state holds none. -/
theorem onlyZerosWithoutHostWrites : Obligations.OnlyZerosWithoutHostWrites :=
  ⟨fun _ _ => step_keeps_allZero, fun c _ _ => run_keeps (fun _ _ => step_keeps_allZero) (initial_allZero c)⟩

/-- Settles O42: it holds. Each of the three jumps goes to the index it was fetched from. -/
theorem takenJumpsToThemselvesRunForever : Obligations.TakenJumpsToThemselvesRunForever := by
  intro s h
  refine run_of_step_self ?_
  rcases h with fetched | fetched | ⟨fetched, clear⟩
  · exact step_of_jumpToItself rfl fetched (congrArg some (add_one_add_minusOne s.pc))
  · exact step_of_jumpToItself rfl fetched rfl
  · exact step_of_jumpToItself rfl fetched (if_pos clear)

/-- Settles O43: it holds. A stop among the first `n` cycles is one among the first `n + k`. -/
theorem runStopsAtOneCycle : Obligations.RunStopsAtOneCycle := by
  refine ⟨fun n s f h => ?_, fun n k s f h => ?_⟩ <;> obtain ⟨m, t, fewer, hrun, stop⟩ := run_eq_fault_iff.1 h
  · exact ⟨m, t, fewer, hrun, cycle_of_fault stop⟩
  · exact run_eq_fault_iff.2 ⟨m, t, Nat.lt_add_right k fewer, hrun, stop⟩

/-- Settles O3: it holds. Legal parameters are all that construction asks for. -/
theorem resetInputRestoresConstruction : Obligations.ResetInputRestoresConstruction := fun s =>
  ⟨State.initial_reg s.cfg, rfl, rfl, rfl, State.initial_memRead s.cfg, rfl,
    fun wf => construct_eq_some_iff.2 ⟨wf, rfl⟩⟩

end Sys2Proof.Proofs
end

section
/-! PROOFS. What the host's ports decline (the model's choice, log 10, beside R45 to R47 of spec/10_state.md). -/

namespace Sys2Proof.Machine

/-! ### Declined accesses, and a snapshot that is not restored -/

theorem hostWrite_mem_outside {a : Word} {s : State} (w : Word) (h : s.cap ≤ a.toNat) :
    hostWrite (.mem a) (.word w) s = none := if_neg (not_inBounds_iff.2 h)

/-- A boolean is a value of `zf` alone (R45). -/
theorem hostWrite_flag_of_ne_zf {e : Element} (h : e ≠ .zf) (b : Bool) (s : State) :
    hostWrite e (.flag b) s = none := by
  cases e with
  | zf => exact absurd rfl h
  | _ => rfl

theorem loadProgram_of_too_long {prog : List InstrWord} (h : 65536 < prog.length) (s : State) :
    loadProgram prog s = none := if_neg (Nat.not_le.2 h)

theorem interact_read_of_none {e : Element} {s : State} (h : hostRead e s = none) :
    interact s (.read e) = (.declined, s) := by
  rw [interact, h, Option.elim_none]

theorem interact_write_of_none {e : Element} {v : HostValue} {s : State} (h : hostWrite e v s = none) :
    interact s (.write e v) = (.declined, s) := congrArg (accepted s) h

theorem interact_loadProgram_of_none {prog : List InstrWord} {s : State} (h : loadProgram prog s = none) :
    interact s (.loadProgram prog) = (.declined, s) := congrArg (accepted s) h

theorem entryValue_zf_of_not_flag {z : Word} (zero : z ≠ 0) (one : z ≠ 1) : entryValue .zf z = none :=
  (if_neg one).trans (if_neg zero)

/-- One entry that stands for no value is enough: the list is not written, whatever stands before that entry. -/
theorem writeEntries_eq_none_of_mem {e : Element} {w : Word} (h : entryValue e w = none) {l : List (Element × Word)}
    (hl : (e, w) ∈ l) (s : State) : writeEntries l s = none := by
  induction hl generalizing s with
  | head rest => rw [writeEntries, h, Option.bind_none, Option.bind_none]
  | tail _ _ ih => exact Option.bind_eq_none_iff.2 fun t _ => ih t

/-- A snapshot's entry 10 is the one for `zf` (R46). -/
theorem zf_mem_zip_snapshotElements {entries : List Word} {z : Word} (h : entries[10]? = some z) (cap : Nat) :
    (Element.zf, z) ∈ (snapshotElements cap).zip entries :=
  List.mem_of_getElem? (List.getElem?_zip_eq_some.2 ⟨rfl, h⟩)

theorem restore_eq_none_of_zf_entry {entries : List Word} {z : Word} (h : entries[10]? = some z) (zero : z ≠ 0)
    (one : z ≠ 1) (s : State) : restore entries s = none := by
  unfold restore
  split
  · exact writeEntries_eq_none_of_mem (entryValue_zf_of_not_flag zero one) (zf_mem_zip_snapshotElements h s.cap) s
  · rfl

end Sys2Proof.Machine

namespace Sys2Proof.Proofs

open Sys2Proof.Machine

/-- Settles O45: it holds. A request that the port does not take leaves the state it was asked in. -/
theorem hostPortDeclinesOtherRequests : Obligations.HostPortDeclinesOtherRequests :=
  ⟨fun _ _ v outside => ⟨hostRead_mem_outside outside, hostWrite_mem_outside v outside⟩,
    fun _ _ => rfl,
    fun s _ b other => hostWrite_flag_of_ne_zf other b s,
    fun _ _ => interact_read_of_none,
    fun _ _ _ => interact_write_of_none,
    fun s _ tooLong => interact_loadProgram_of_none (loadProgram_of_too_long tooLong s),
    fun s _ _ entry zero one => restore_eq_none_of_zf_entry entry zero one s⟩

end Sys2Proof.Proofs
end
